-- ==== Sys2Proof/Word.lean ====
section
/-! DEFINITION. The machine's bit words and their two widths: the byte of the frame, of a chip register and of a transaction (00_scope.md R8), the
operand of an operation (R7), the command word made of operands (30_encoding.md R78) and the wire pair made of bytes (R70). -/

namespace Sys2Proof

/-- The width of a frame row, a chip register and a byte of a transaction (R7 row width, R8). -/
abbrev byteBits : Nat := 8

/-- The width of every operand: `addr`, `x`, `y`, `row`, `column`, `level`, `value`, `reg` (R7, decision D4). The operand fields of a command word,
the operand ports and the range of a well-formed operand all follow it (log 21). -/
abbrev operandBits : Nat := 8

/-- 8 bits, bit 7 the most significant (R8, R9). -/
abbrev Byte := BitVec byteBits

/-- An operand, as bits. -/
abbrev Operand := BitVec operandBits

/-- The width of a command word: three operand fields below `op`, `rsv` and `s`, which have eight bits (R78, decision D5). -/
abbrev commandBits : Nat := 3 * operandBits + 8

/-- The operands `reg` and `value` of a call of the primitive, `reg` above `value` (R101; the port is the model's, log 14). -/
abbrev RegisterValue := BitVec (2 * operandBits)

/-- One host command (R78, R88). -/
abbrev Word := BitVec commandBits

/-- One `(register, value)` pair read as `register byte ++ value byte` (R70). -/
abbrev Pair := BitVec (2 * byteBits)

end Sys2Proof
end

