-- ==== Sys2Proof/Config.lean ====
section
/-! DEFINITION. What an implementation fixes, and the values the spec leaves open. The numbers of the register map and the
default parameters stand in Machine/Defaults.lean. -/

namespace Sys2Proof

/-- The parameters the block is built with; no operation reads them out or changes them (00_scope.md R6, R7). The state carries
them (log 2), so that a statement about every state holds for every configuration. -/
structure Params where
  /-- `N`, the number of chained devices (R6); the bound `1 <= N <= 255` (decision D3) is `Params.wellFormed`. -/
  chainLength : Nat
  /-- `SETCOL_MSB_IS_ROW0`: whether bit 7 of SETCOL's value drives row 0 (R127, decision D8). -/
  setcolMsbIsRow0 : Bool
  /-- `SETCOL_ASCENDING`: whether SETCOL writes rows 0 to 7 in this order (R127, decision D9). DESIGN CHOICE: if not, rows 7 down to 0 (log 20). -/
  setcolAscending : Bool
deriving DecidableEq, Repr

/-- The frame byte of a device and row at power-on: unspecified (10_state.md R34), so a value nothing is known of (log 4). -/
opaque Config.powerOnFrameByte : (device row : Nat) → Byte

/-- A chip's register at power-on: undefined (60_exceptions.md R157; log 5). -/
opaque Config.powerOnChipByte : (device register : Nat) → Byte

/-- What the transport answers at a call for which `State.replies` holds no answer: a free input (20_memory.md R44; log 7). -/
opaque Config.freeAnswer : (draw : Nat) → Bool

/-- A chip's register after an event that leaves it unknown: a failed transaction to that chip (60_exceptions.md R159; log 11) or a
pair with a reserved register address (30_encoding.md R85; log 12). -/
opaque Config.unknownChipByte : (draw device register : Nat) → Byte

end Sys2Proof
end

