-- ==== Sys2Proof/Machine/Defaults.lean ====
section
/-! DEFINITION. The numbers the spec gives as named configuration values (00_scope.md R7): the register address map, the ranges,
the layout of a command word, the opcodes, the status numbers, the lifecycle at power-on and the default parameters. Changing one
here changes it everywhere (log 19, log 22, log 28). The widths stand in Word.lean. -/

namespace Sys2Proof

/-- `REG_NOOP`, the one register number the source itself states (R50). -/
def regNoop : Nat := 0x00
/-- `REG_DIGIT_0`; digit register `x` is `regDigit0 + x` (R50, R73). -/
def regDigit0 : Nat := 0x01
/-- `REG_DECODE_MODE`. -/
def regDecodeMode : Nat := 0x09
/-- `REG_INTENSITY`. -/
def regIntensity : Nat := 0x0A
/-- `REG_SCAN_LIMIT`. -/
def regScanLimit : Nat := 0x0B
/-- `REG_SHUTDOWN`. -/
def regShutdown : Nat := 0x0C
/-- In range, not meaningful for writes (R51, R85). -/
def regReserved0D : Nat := 0x0D
/-- In range, not meaningful for writes (R51, R85). -/
def regReserved0E : Nat := 0x0E
/-- `REG_DISPLAY_TEST`. -/
def regDisplayTest : Nat := 0x0F
/-- The last address of the range `0x00..0x0F` (R50). -/
def regLast : Nat := 0x0F
/-- The highest intensity level (R111). -/
def levelLast : Nat := 15
/-- The highest row and column (R20, R21). -/
def lineLast : Nat := 7

/-- The longest chain (R7, decision D3). -/
def chainLimit : Nat := 255
/-- The flag `bound` at power-on (R7, decision D10). -/
def powerOnBound : Bool := false

/-! ### The layout of a command word (30_encoding.md R78, decision D5): the three operand fields `b`, `a`, `addr` from bit 0 up, then `s`, `rsv`, `op` -/

/-- A field of a word: its highest and its lowest bit (00_scope.md R9). -/
structure BitRange where
  hi : Nat
  lo : Nat
deriving DecidableEq, Repr

/-- `op`, bits 31..28. -/
def opAt : BitRange := ⟨3 * operandBits + 7, 3 * operandBits + 4⟩
/-- `rsv`, bits 27..25. -/
def rsvAt : BitRange := ⟨3 * operandBits + 3, 3 * operandBits + 1⟩
/-- `s`, bit 24. -/
def sAt : BitRange := ⟨3 * operandBits, 3 * operandBits⟩
/-- `addr`, bits 23..16. -/
def addrAt : BitRange := ⟨3 * operandBits - 1, 2 * operandBits⟩
/-- `a`, bits 15..8. -/
def aAt : BitRange := ⟨2 * operandBits - 1, operandBits⟩
/-- `b`, bits 7..0. -/
def bAt : BitRange := ⟨operandBits - 1, 0⟩

/-! ### The opcodes (30_encoding.md R80, decision D5) -/

def opInit : Nat := 0x0
def opShutdown : Nat := 0x1
def opIntensity : Nat := 0x2
def opDisptest : Nat := 0x3
def opClear : Nat := 0x4
def opSetled : Nat := 0x5
def opSetrow : Nat := 0x6
def opSetcol : Nat := 0x7

/-! ### The status numbers (30_encoding.md R89, 60_exceptions.md R140, decision D6) -/

def codeOk : BitVec 2 := 0
def codeInvalidArgument : BitVec 2 := 1
def codeOutOfBounds : BitVec 2 := 2
def codeTransportError : BitVec 2 := 3

/-- One device, SETCOL most significant bit first, rows ascending (R6, R7). -/
def Params.default : Params := { chainLength := 1, setcolMsbIsRow0 := true, setcolAscending := true }

end Sys2Proof
end

