-- ==== Sys2Proof/Syntax.lean ====
section
/-! DEFINITION. The instructions, one constructor per row of spec/opcode_table.json, and the requests that carry them into the
machine. Operands that the rules treat as numbers are `Nat` (00_scope.md R8: unsigned, no wrap-around), their 8-bit range is
`Instr.wellFormed`; the operand `value`, which the rules treat as bits, is an `Operand`; the value of a wire pair is a byte of the wire. -/

namespace Sys2Proof

/-- The rows of spec/opcode_table.json. -/
inductive Instr where
  /-- INIT (R100); `t`: a transport is supplied. -/
  | init (t : Bool)
  /-- SHUTDOWN (R110); `s`: enter shutdown. -/
  | shutdown (addr : Nat) (s : Bool)
  /-- INTENSITY (R111). -/
  | intensity (addr level : Nat)
  /-- DISPTEST (R112); `s`: enabled. -/
  | disptest (addr : Nat) (s : Bool)
  /-- CLEAR (R121). -/
  | clear (addr : Nat)
  /-- SETLED (R123); `x` the row, `y` the column, `s` lit. -/
  | setled (addr x y : Nat) (s : Bool)
  /-- SETROW (R125). -/
  | setrow (addr row : Nat) (value : Operand)
  /-- SETCOL (R127). -/
  | setcol (addr column : Nat) (value : Operand)
  /-- WRREG, the internal primitive `writeRegister` (R101). -/
  | wrreg (addr reg : Nat) (value : Operand)
  /-- NOOP, the pair with register 0x00 in a device's slot (R51, R158). -/
  | noop (slot : Nat) (value : Byte)
  /-- DIGIT_0, register 0x01 (R51, R158, R160). -/
  | digit0 (slot : Nat) (value : Byte)
  /-- DIGIT_1, register 0x02. -/
  | digit1 (slot : Nat) (value : Byte)
  /-- DIGIT_2, register 0x03. -/
  | digit2 (slot : Nat) (value : Byte)
  /-- DIGIT_3, register 0x04. -/
  | digit3 (slot : Nat) (value : Byte)
  /-- DIGIT_4, register 0x05. -/
  | digit4 (slot : Nat) (value : Byte)
  /-- DIGIT_5, register 0x06. -/
  | digit5 (slot : Nat) (value : Byte)
  /-- DIGIT_6, register 0x07. -/
  | digit6 (slot : Nat) (value : Byte)
  /-- DIGIT_7, register 0x08. -/
  | digit7 (slot : Nat) (value : Byte)
  /-- DECODE_MODE, register 0x09. -/
  | decodeMode (slot : Nat) (value : Byte)
  /-- INTENSITY_REG, register 0x0A. -/
  | intensityReg (slot : Nat) (value : Byte)
  /-- SCAN_LIMIT, register 0x0B. -/
  | scanLimit (slot : Nat) (value : Byte)
  /-- SHUTDOWN_REG, register 0x0C. -/
  | shutdownReg (slot : Nat) (value : Byte)
  /-- RESERVED_0D, register 0x0D (R85). -/
  | reserved0d (slot : Nat) (value : Byte)
  /-- RESERVED_0E, register 0x0E (R85). -/
  | reserved0e (slot : Nat) (value : Byte)
  /-- DISPLAY_TEST_REG, register 0x0F. -/
  | displayTestReg (slot : Nat) (value : Byte)
deriving DecidableEq, Repr

/-- What is presented to the machine, as bits. The block has no instruction memory (10_state.md R25): an instruction arrives at a
port. Only `command` is a port of the hardware's host side (R13); the two others are the model's way to reach the rows of the table
that are no host commands (log 13, log 14). -/
inductive Request where
  /-- A command word at the command port (R78). -/
  | command (w : Word)
  /-- A direct call of the internal primitive for device `addr`, its register and value side by side (R101). -/
  | primitive (addr : Operand) (p : RegisterValue)
  /-- A pair standing in slot `slot` of an accepted transaction, as the chip of that slot receives it (R71, R158). -/
  | pair (slot : Operand) (p : Pair)
deriving DecidableEq, Repr

/-- The device address or slot an instruction names; INIT names none (R79). -/
def Instr.device : Instr → Option Nat
  | .init _ => none
  | .shutdown addr _ | .intensity addr _ | .disptest addr _ | .clear addr | .setled addr _ _ _ | .setrow addr _ _
  | .setcol addr _ _ | .wrreg addr _ _ => some addr
  | .noop slot _ | .digit0 slot _ | .digit1 slot _ | .digit2 slot _ | .digit3 slot _ | .digit4 slot _ | .digit5 slot _
  | .digit6 slot _ | .digit7 slot _ | .decodeMode slot _ | .intensityReg slot _ | .scanLimit slot _ | .shutdownReg slot _
  | .reserved0d slot _ | .reserved0e slot _ | .displayTestReg slot _ => some slot

/-- The eight host commands (30_encoding.md R80); the primitive and the wire pairs are none (R84, R86). -/
def Instr.isCommand : Instr → Bool
  | .init _ | .shutdown _ _ | .intensity _ _ | .disptest _ _ | .clear _ | .setled _ _ _ _ | .setrow _ _ _ | .setcol _ _ _ => true
  | .wrreg _ _ _ | .noop _ _ | .digit0 _ _ | .digit1 _ _ | .digit2 _ _ | .digit3 _ _ | .digit4 _ _ | .digit5 _ _ | .digit6 _ _
  | .digit7 _ _ | .decodeMode _ _ | .intensityReg _ _ | .scanLimit _ _ | .shutdownReg _ _ | .reserved0d _ _ | .reserved0e _ _
  | .displayTestReg _ _ => false

end Sys2Proof
end

