-- ==== Sys2Proof/WellFormed.lean ====
section
/-! DEFINITION. When an instruction can be encoded, and when a configuration is one the spec admits. A well-formed instruction may
still be answered `OutOfBounds` (30_encoding.md R87): only the 8-bit width of the fields is checked here (00_scope.md R7, R8, log 21). -/

namespace Sys2Proof

/-- An operand that fits its field (R78, decision D4). -/
def isOperand (n : Nat) : Bool := decide (n < 2 ^ operandBits)

/-- Every number operand fits its 8-bit field (R78, decision D4). -/
def Instr.wellFormed : Instr → Bool
  | .init _ => true
  | .shutdown addr _ => isOperand addr
  | .intensity addr level => isOperand addr && isOperand level
  | .disptest addr _ => isOperand addr
  | .clear addr => isOperand addr
  | .setled addr x y _ => isOperand addr && isOperand x && isOperand y
  | .setrow addr row _ => isOperand addr && isOperand row
  | .setcol addr column _ => isOperand addr && isOperand column
  | .wrreg addr reg _ => isOperand addr && isOperand reg
  | .noop slot _ => isOperand slot
  | .digit0 slot _ => isOperand slot
  | .digit1 slot _ => isOperand slot
  | .digit2 slot _ => isOperand slot
  | .digit3 slot _ => isOperand slot
  | .digit4 slot _ => isOperand slot
  | .digit5 slot _ => isOperand slot
  | .digit6 slot _ => isOperand slot
  | .digit7 slot _ => isOperand slot
  | .decodeMode slot _ => isOperand slot
  | .intensityReg slot _ => isOperand slot
  | .scanLimit slot _ => isOperand slot
  | .shutdownReg slot _ => isOperand slot
  | .reserved0d slot _ => isOperand slot
  | .reserved0e slot _ => isOperand slot
  | .displayTestReg slot _ => isOperand slot

/-- `1 <= N <= 255` (R7, decision D3). -/
def Params.wellFormed (p : Params) : Bool := decide (1 ≤ p.chainLength) && decide (p.chainLength ≤ chainLimit)

end Sys2Proof
end

