-- ==== Sys2Proof/Decode.lean ====
section
/-! DEFINITION. From bits to an instruction, total, rejecting by name, and the encoder. The command word is 30_encoding.md R78 to R83,
the wire pair R70. -/

namespace Sys2Proof

/-- Why bits are no instruction. -/
inductive Reject where
  /-- `rsv`, bits 27..25 of a command word, is not zero (R82). -/
  | reservedBits
  /-- `op`, bits 31..28 of a command word, is 0x8..0xF (R83). -/
  | reservedOpcode
  /-- The register byte of a pair is above 0x0F, where R70 has four zero bits (R43, log 16). -/
  | malformedPair
deriving DecidableEq, Repr

/-- `w[hi:lo]` as an unsigned number (00_scope.md R9). -/
def field (w : Word) (f : BitRange) : Nat := w.toNat / 2 ^ f.lo % 2 ^ (f.hi + 1 - f.lo)

/-! ### The fields of a command word (R78) -/

def fieldOp (w : Word) : Nat := field w opAt
def fieldRsv (w : Word) : Nat := field w rsvAt
def fieldS (w : Word) : Bool := decide (field w sAt = 1)
def fieldAddr (w : Word) : Nat := field w addrAt
def fieldA (w : Word) : Nat := field w aAt
def fieldB (w : Word) : Nat := field w bAt
def valueB (w : Word) : Operand := BitVec.ofNat operandBits (fieldB w)

/-- A row of R80: an opcode, its mnemonic, and the instruction read from the word's fields (R79). -/
structure CommandRow where
  op : Nat
  mnemonic : String
  read : Word → Instr

/-- R80 with R79: unused fields are not looked at (R81). -/
def commandTable : List CommandRow :=
  [ ⟨opInit, "INIT", fun w => .init (fieldS w)⟩,
    ⟨opShutdown, "SHUTDOWN", fun w => .shutdown (fieldAddr w) (fieldS w)⟩,
    ⟨opIntensity, "INTENSITY", fun w => .intensity (fieldAddr w) (fieldA w)⟩,
    ⟨opDisptest, "DISPTEST", fun w => .disptest (fieldAddr w) (fieldS w)⟩,
    ⟨opClear, "CLEAR", fun w => .clear (fieldAddr w)⟩,
    ⟨opSetled, "SETLED", fun w => .setled (fieldAddr w) (fieldA w) (fieldB w) (fieldS w)⟩,
    ⟨opSetrow, "SETROW", fun w => .setrow (fieldAddr w) (fieldA w) (valueB w)⟩,
    ⟨opSetcol, "SETCOL", fun w => .setcol (fieldAddr w) (fieldA w) (valueB w)⟩ ]

/-- A command word (R80, R82, R83). -/
def decodeCommand (w : Word) : Except Reject Instr :=
  if fieldRsv w ≠ 0 then .error .reservedBits
  else
    match commandTable.find? fun row => row.op == fieldOp w with
    | some row => .ok (row.read w)
    | none => .error .reservedOpcode

/-- The register byte of a pair, the first of its two bytes (R41, R70). -/
def pairRegister (p : Pair) : Nat := p.toNat / 2 ^ byteBits

/-- The value byte of a pair, the second (R41, R70). -/
def pairValue (p : Pair) : Byte := BitVec.ofNat byteBits (p.toNat % 2 ^ byteBits)

/-- A row of the register address map (R51). -/
structure PairRow where
  register : Nat
  mnemonic : String
  read : Nat → Byte → Instr

/-- R51: the sixteen pairs. -/
def pairTable : List PairRow :=
  [ ⟨regNoop, "NOOP", .noop⟩,
    ⟨regDigit0, "DIGIT_0", .digit0⟩,
    ⟨regDigit0 + 1, "DIGIT_1", .digit1⟩,
    ⟨regDigit0 + 2, "DIGIT_2", .digit2⟩,
    ⟨regDigit0 + 3, "DIGIT_3", .digit3⟩,
    ⟨regDigit0 + 4, "DIGIT_4", .digit4⟩,
    ⟨regDigit0 + 5, "DIGIT_5", .digit5⟩,
    ⟨regDigit0 + 6, "DIGIT_6", .digit6⟩,
    ⟨regDigit0 + 7, "DIGIT_7", .digit7⟩,
    ⟨regDecodeMode, "DECODE_MODE", .decodeMode⟩,
    ⟨regIntensity, "INTENSITY_REG", .intensityReg⟩,
    ⟨regScanLimit, "SCAN_LIMIT", .scanLimit⟩,
    ⟨regShutdown, "SHUTDOWN_REG", .shutdownReg⟩,
    ⟨regReserved0D, "RESERVED_0D", .reserved0d⟩,
    ⟨regReserved0E, "RESERVED_0E", .reserved0e⟩,
    ⟨regDisplayTest, "DISPLAY_TEST_REG", .displayTestReg⟩ ]

/-- The pair in a slot, as the chip of that slot takes it (R51, R70). -/
def decodePair (slot : Nat) (p : Pair) : Except Reject Instr :=
  match pairTable.find? fun row => row.register == pairRegister p with
  | some row => .ok (row.read slot (pairValue p))
  | none => .error .malformedPair

/-- A call of the primitive: its range check is its meaning's, so every register byte decodes (R101). -/
def decodePrimitive (addr : Nat) (p : RegisterValue) : Instr :=
  .wrreg addr (p.toNat / 2 ^ operandBits) (BitVec.ofNat operandBits (p.toNat % 2 ^ operandBits))

/-- Every request, by the port it stands at. -/
def decode : Request → Except Reject Instr
  | .command w => decodeCommand w
  | .primitive addr p => .ok (decodePrimitive addr.toNat p)
  | .pair slot p => decodePair slot.toNat p

/-! ### The encoder -/

/-- `op ++ rsv ++ s ++ addr ++ a ++ b` with `rsv = 0` (R78); an unused field is zero (R90). -/
def commandWord (op : Nat) (s : Bool) (addr a b : Nat) : Word :=
  BitVec.ofNat commandBits
    (op * 2 ^ opAt.lo + s.toNat * 2 ^ sAt.lo + addr * 2 ^ addrAt.lo + a * 2 ^ aAt.lo + b * 2 ^ bAt.lo)

/-- Register byte, then value byte (R70). -/
def pairWord (reg : Nat) (value : Byte) : Pair := BitVec.ofNat (2 * byteBits) (reg * 2 ^ byteBits + value.toNat)

/-- A pair in a slot. -/
def pairRequest (reg slot : Nat) (value : Byte) : Request := .pair (BitVec.ofNat operandBits slot) (pairWord reg value)

/-- The operands of a call of the primitive. -/
def primitiveRequest (addr reg : Nat) (value : Operand) : Request :=
  .primitive (BitVec.ofNat operandBits addr) (BitVec.ofNat (2 * operandBits) (reg * 2 ^ operandBits + value.toNat))

/-- The bits of an instruction, for its port (R79, R80, R51). -/
def encode : Instr → Request
  | .init t => .command (commandWord opInit t 0 0 0)
  | .shutdown addr s => .command (commandWord opShutdown s addr 0 0)
  | .intensity addr level => .command (commandWord opIntensity false addr level 0)
  | .disptest addr s => .command (commandWord opDisptest s addr 0 0)
  | .clear addr => .command (commandWord opClear false addr 0 0)
  | .setled addr x y s => .command (commandWord opSetled s addr x y)
  | .setrow addr row value => .command (commandWord opSetrow false addr row value.toNat)
  | .setcol addr column value => .command (commandWord opSetcol false addr column value.toNat)
  | .wrreg addr reg value => primitiveRequest addr reg value
  | .noop slot value => pairRequest regNoop slot value
  | .digit0 slot value => pairRequest regDigit0 slot value
  | .digit1 slot value => pairRequest (regDigit0 + 1) slot value
  | .digit2 slot value => pairRequest (regDigit0 + 2) slot value
  | .digit3 slot value => pairRequest (regDigit0 + 3) slot value
  | .digit4 slot value => pairRequest (regDigit0 + 4) slot value
  | .digit5 slot value => pairRequest (regDigit0 + 5) slot value
  | .digit6 slot value => pairRequest (regDigit0 + 6) slot value
  | .digit7 slot value => pairRequest (regDigit0 + 7) slot value
  | .decodeMode slot value => pairRequest regDecodeMode slot value
  | .intensityReg slot value => pairRequest regIntensity slot value
  | .scanLimit slot value => pairRequest regScanLimit slot value
  | .shutdownReg slot value => pairRequest regShutdown slot value
  | .reserved0d slot value => pairRequest regReserved0D slot value
  | .reserved0e slot value => pairRequest regReserved0E slot value
  | .displayTestReg slot value => pairRequest regDisplayTest slot value

/-! ### The opcode table's words -/

/-- The request a word of spec/opcode_table.json stands for: a 32-bit row is a command word, a 16-bit row a pair in slot 0 (a pair's slot
is not among the table's bits, so it is zero; log 13, log 15). -/
def tableRequest (nbits w : Nat) : Option Request :=
  if nbits = commandBits ∧ w < 2 ^ commandBits then some (.command (BitVec.ofNat commandBits w))
  else if nbits = 2 * byteBits ∧ w < 2 ^ (2 * byteBits) then some (.pair 0 (BitVec.ofNat (2 * byteBits) w))
  else none

/-- The instruction the decoder reads from a word of the opcode table. -/
def decodeTableWord (nbits w : Nat) : Option Instr :=
  match tableRequest nbits w with
  | some r => (decode r).toOption
  | none => none

end Sys2Proof
end

