-- ==== Sys2Proof/Machine/State.lean ====
section
/-! DEFINITION. The state: the block's own (10_state.md), its ports (92_eei_decisions.md D2), and the chained chips (60_exceptions.md R157). -/

namespace Sys2Proof.Machine

/-- The eight rows of one device, row 0 first; bit `7-c` of a row is column `c` (10_state.md R20, R21). -/
abbrev Rows := Vector Byte 8

/-- How a command ended (60_exceptions.md R140); the numbers are `Status.code`. -/
inductive Status where
  | ok
  | invalidArgument
  | outOfBounds
  | transportError
deriving DecidableEq, Repr

/-- What the transport does at one call, as the run's environment fixes it beforehand (20_memory.md R44). -/
inductive Reply where
  | success
  | failure
  /-- It never answers (70_reset_and_hazards.md R184, U9). -/
  | never
deriving DecidableEq, Repr

/-- One call of the transport: the whole buffer, and the answer (R15, R44). -/
structure TransportCall where
  buf : List Byte
  answer : Bool
deriving DecidableEq, Repr

/-- The registers of one chained chip, at the addresses `0x01..0x0F` (R51, R157). -/
structure ChipRegs where
  /-- 0x01..0x08: digit register `r` controls row `r`. -/
  digit : Vector Byte 8
  /-- 0x09 -/
  decodeMode : Byte
  /-- 0x0A -/
  intensity : Byte
  /-- 0x0B -/
  scanLimit : Byte
  /-- 0x0C: 1 = normal operation, 0 = shutdown. -/
  shutdown : Byte
  /-- 0x0D -/
  reserved0D : Byte
  /-- 0x0E -/
  reserved0E : Byte
  /-- 0x0F: 1 = test on, 0 = test off. -/
  displayTest : Byte
deriving DecidableEq, Repr

/-- Why the machine stops. -/
inductive Fault where
  /-- Raised by the step for a command word with reserved bits or a reserved opcode (60_exceptions.md R148). The spec's own fault: safe. -/
  | illegalCommand
  /-- Raised by every command but INIT while `bound = false` (R147). The spec's own fault: safe. -/
  | unbound
  /-- Raised by a transport call that is never answered: the command never returns (R184, U9, log 8). Safe. -/
  | transportSilent
  /-- Raised by a pair in a slot at or beyond the chain's end: no such slot exists (R30, R71, log 17). Safe. -/
  | noSuchSlot
  /-- Raised by an access to a frame byte that does not exist; in no reachable state, since every operand is checked first and the
  frame has `N` devices (R30, R143, log 18). Safe. -/
  | frameAddress
deriving DecidableEq, Repr

/-- Why the model gives a request no meaning. -/
inductive Refusal where
  /-- Raised by an arm of `exec` for an instruction that has no meaning yet. Safe. -/
  | notModelled (mnemonic : String)
  /-- Raised by the step for a pair whose register byte is above 0x0F: no such pair exists (R43, R70, log 16). Safe. -/
  | malformedPair
deriving DecidableEq, Repr

/-- The machine's state. `frame` and `bound` are the block's own (R14); `params` is its configuration (log 2). -/
structure State where
  params : Params
  /-- `frame[d][r]`, device 0 first (R20). -/
  frame : List Rows
  /-- A successful INIT has stored the transport capability (R23). -/
  bound : Bool
  /-- The result port: the status of the last command that returned, if one has (R89, R140, log 6). -/
  result : Option Status
  /-- The transport calls made so far, oldest first (R15, R44, log 25). -/
  calls : List TransportCall
  /-- The chained chips, device 0 first (R157). -/
  chips : List ChipRegs
  /-- What the outside presents next, in order (R13, log 1). -/
  requests : List Request
  /-- How the transport behaves at its next calls, in order; past its end the answer is a free value (R44, log 7). -/
  replies : List Reply
  /-- The model's own: how many free values have been taken (log 7). -/
  draws : Nat
deriving DecidableEq, Repr

/-- A chip whose registers hold the bytes of a function of the register address. -/
def ChipRegs.ofBytes (byte : Nat → Byte) : ChipRegs :=
  { digit := #v[byte (regDigit0 + 0), byte (regDigit0 + 1), byte (regDigit0 + 2), byte (regDigit0 + 3), byte (regDigit0 + 4),
      byte (regDigit0 + 5), byte (regDigit0 + 6), byte (regDigit0 + 7)]
    decodeMode := byte regDecodeMode
    intensity := byte regIntensity
    scanLimit := byte regScanLimit
    shutdown := byte regShutdown
    reserved0D := byte regReserved0D
    reserved0E := byte regReserved0E
    displayTest := byte regDisplayTest }

/-- The rows of one device that hold the bytes of a function of the row. -/
def rowsOf (byte : Nat → Byte) : Rows := #v[byte 0, byte 1, byte 2, byte 3, byte 4, byte 5, byte 6, byte 7]

/-- Power-on of a block built with the parameters `p` (10_state.md R34, 70_reset_and_hazards.md R171). -/
def State.powerOn (p : Params) : State :=
  { params := p
    frame := (List.range p.chainLength).map fun d => rowsOf (Config.powerOnFrameByte d)
    bound := powerOnBound
    result := none
    calls := []
    chips := (List.range p.chainLength).map fun d => ChipRegs.ofBytes (Config.powerOnChipByte d)
    requests := []
    replies := []
    draws := 0 }

/-- Power-on with the default parameters, `N = 1` (R6, R34; log 3). -/
def State.reset : State := State.powerOn Params.default

end Sys2Proof.Machine
end

