-- ==== Sys2Proof/Machine/Flags.lean ====
section
/-! DEFINITION. The block has no flags and no condition codes (10_state.md R27); what stands in their place is the status of a command
and its number on the result port (30_encoding.md R89). -/

namespace Sys2Proof.Machine

/-- The 2-bit number of a status on the result port (R89, decision D6, log 22). -/
def Status.code : Status → BitVec 2
  | .ok => codeOk
  | .invalidArgument => codeInvalidArgument
  | .outOfBounds => codeOutOfBounds
  | .transportError => codeTransportError

/-- The status a register write relays: the transport's answer, verbatim (R101, R144). -/
def statusOfAnswer (ok : Bool) : Status := if ok then .ok else .transportError

/-- Whether the block may go on to a composite's next step (R121, R127). -/
def Status.isOk (st : Status) : Bool := decide (st = .ok)

end Sys2Proof.Machine
end

