-- ==== Sys2Proof/Machine/Operands.lean ====
section
/-! DEFINITION. How each operation forms its register address, value and slot from its operands (30_encoding.md R72 to R75). -/

namespace Sys2Proof.Machine

/-- A Boolean operand as a value byte, 0 or 1 (R112). -/
def boolByte (s : Bool) : Byte := if s then 0x01 else 0x00

/-- The operand `value` as the byte of a row or of a pair, unchanged (R125, R101; for an operand width other than 8, log 21). -/
def valueByte (value : Operand) : Byte := value.setWidth byteBits

/-- INTENSITY's value: the level, unchanged (R111). -/
def levelByte (level : Nat) : Byte := BitVec.ofNat byteBits level

/-- SHUTDOWN's value: `!enterShutdown` (R110). -/
def shutdownValue (enterShutdown : Bool) : Byte := boolByte (!enterShutdown)

/-- A register address as the register byte of a pair (R43). -/
def registerByte (reg : Nat) : Byte := BitVec.ofNat byteBits reg

/-- The digit register of row `x` (R73). -/
def digitRegister (x : Nat) : Nat := regDigit0 + x

/-- Where the slot of device `addr` starts in a transaction (R42, R75). -/
def slotOffset (addr : Nat) : Nat := 2 * addr

/-- The mask of column `y` (R74). -/
def columnMask (y : Nat) : Byte := (1 : Byte) <<< (7 - y)

/-- A row with the LED at column `y` lit or darkened and the other seven left alone (R123). -/
def setColumnBit (y : Nat) (s : Bool) (row : Byte) : Byte := if s then row ||| columnMask y else row &&& ~~~ columnMask y

/-- The bit of SETCOL's value that drives row `r` (R127, decision D8, log 20). -/
def columnBit (p : Params) (value : Operand) (r : Nat) : Bool := if p.setcolMsbIsRow0 then value.getLsbD (7 - r) else value.getLsbD r

/-- Rows 0 to 7 in ascending order (R121). -/
def rowsAscending : List Nat := [0, 1, 2, 3, 4, 5, 6, 7]

/-- The order of SETCOL's eight steps (R127, decision D9). DESIGN CHOICE: the spec names no order for `SETCOL_ASCENDING = false`; the model takes
rows 7 down to 0 (log 20). -/
def setcolOrder (p : Params) : List Nat := if p.setcolAscending then rowsAscending else rowsAscending.reverse

end Sys2Proof.Machine
end

