-- ==== Sys2Proof/Machine/Ops.lean ====
section
/-! DEFINITION. The named operations: ending a command, the frame, the transaction, the transport, the chips, the register-write
primitive, and the write-through of rows. -/

namespace Sys2Proof.Machine

/-! ### Ending a command -/

/-- What an operation inside a command comes to: a status and a state, or a stop. -/
abbrev Call := Except Fault (Status × State)

/-- A command returns its status on the result port and the block is ready for the next one. There is no trap entry: no mode
changes, no state is saved, control goes nowhere (60_exceptions.md R140, R146, R152). -/
def endCommand (st : Status) (s : State) : State := { s with result := some st }

/-- The outcome of a command's operation. -/
def respond : Call → Host.Outcome State Fault Refusal
  | .ok (st, s) => .next (endCommand st s)
  | .error f => .fault f

/-- Every command but INIT is dispatched only when the block is bound (40_init_and_register_write.md R102, R147). -/
def whenBound (s : State) (run : State → Call) : Host.Outcome State Fault Refusal :=
  if s.bound then respond (run s) else .fault .unbound

/-- A device address names no device of the chain (60_exceptions.md R142). -/
def State.noDevice (s : State) (addr : Nat) : Bool := decide (s.params.chainLength ≤ addr)

/-! ### The frame (10_state.md R20) -/

/-- `frame[d][r]`; none where the frame has no such byte (R30). It is also the observation port (R31). -/
def State.frameByte (s : State) (d r : Nat) : Option Byte :=
  match s.frame[d]? with
  | some rows => rows[r]?
  | none => none

/-- `frame[d][r] <- v`. -/
def State.setFrameByte (s : State) (d r : Nat) (v : Byte) : State :=
  { s with frame := s.frame.modify d fun rows => rows.setIfInBounds r v }

/-- Every byte `0x00` (R33, R100). -/
def zeroFrame (n : Nat) : List Rows := List.replicate n (Vector.replicate 8 0)

/-- Step (a) of the write-through discipline: one row of the frame becomes `f` of what it was; the updated byte is handed on
(42_frame_operations.md R120). -/
def updateRow (d r : Nat) (f : Byte → Byte) (s : State) : Except Fault (Byte × State) :=
  match s.frameByte d r with
  | some old => .ok (f old, s.setFrameByte d r (f old))
  | none => .error .frameAddress

/-! ### The chips (60_exceptions.md R157 to R160) -/

/-- `dev[d].reg[reg]`; none where a chip has no register of that address (R157). No rule of the block reads this (R32). -/
def ChipRegs.read (c : ChipRegs) (reg : Nat) : Option Byte :=
  if reg = regDecodeMode then some c.decodeMode
  else if reg = regIntensity then some c.intensity
  else if reg = regScanLimit then some c.scanLimit
  else if reg = regShutdown then some c.shutdown
  else if reg = regReserved0D then some c.reserved0D
  else if reg = regReserved0E then some c.reserved0E
  else if reg = regDisplayTest then some c.displayTest
  else if regDigit0 ≤ reg then c.digit[reg - regDigit0]?
  else none

/-- `dev[d].reg[reg] <- value` for an address that has a register; no register changes for one that has none (R157, R158). -/
def ChipRegs.write (c : ChipRegs) (reg : Nat) (value : Byte) : ChipRegs :=
  if reg = regDecodeMode then { c with decodeMode := value }
  else if reg = regIntensity then { c with intensity := value }
  else if reg = regScanLimit then { c with scanLimit := value }
  else if reg = regShutdown then { c with shutdown := value }
  else if reg = regReserved0D then { c with reserved0D := value }
  else if reg = regReserved0E then { c with reserved0E := value }
  else if reg = regDisplayTest then { c with displayTest := value }
  else if regDigit0 ≤ reg then { c with digit := c.digit.setIfInBounds (reg - regDigit0) value }
  else c

/-- Device `d` with every register unknown: the draw's free bytes (R85, U4, log 12). -/
def unknownChip (draw d : Nat) : ChipRegs := ChipRegs.ofBytes (Config.unknownChipByte draw d)

/-- Chip `d` latches a pair: the no-op register is ignored, an address that is not meaningful for writes leaves the chip unknown
(R85, U4, log 12), any other register takes the value (R158). -/
def latchPair (draw d reg : Nat) (value : Byte) (c : ChipRegs) : ChipRegs :=
  if reg = regNoop then c
  else if reg = regReserved0D ∨ reg = regReserved0E then unknownChip draw d
  else c.write reg value

/-- Chip `d` after a pair for register `reg` of which it is not known whether it latched it. The digit registers that the pair does not
name are what they were (R161 (c), 70_reset_and_hazards.md R174, 95_test_vectors.md P4). The register it names is unknown (R159), and so is
every register that is no digit register (90_conflicts.md C8, U2, log 11). An address that is not meaningful for writes leaves all unknown
(log 12). -/
def doubtPair (draw d reg : Nat) (c : ChipRegs) : ChipRegs :=
  if reg = regReserved0D ∨ reg = regReserved0E then unknownChip draw d
  else { unknownChip draw d with digit := c.digit }.write reg (Config.unknownChipByte draw d reg)

/-- `dev[d].reg[reg]`; none where there is no such device or register. -/
def State.chipByte (s : State) (d reg : Nat) : Option Byte :=
  match s.chips[d]? with
  | some c => c.read reg
  | none => none

/-! ### The outbound transaction (20_memory.md R40 to R46) -/

/-- `2*N` bytes, each `0x00` but the target's pair (R101). -/
def transaction (n addr reg : Nat) (value : Byte) : List Byte :=
  ((List.replicate (2 * n) 0).set (slotOffset addr) (registerByte reg)).set (slotOffset addr + 1) value

/-- What device `d` does with an accepted transaction: it latches the pair of its own slot (R42, R158). -/
def latchSlot (draw : Nat) (buf : List Byte) (d : Nat) (c : ChipRegs) : ChipRegs :=
  match buf[slotOffset d]?, buf[slotOffset d + 1]? with
  | some reg, some value => latchPair draw d reg.toNat value c
  | _, _ => c

/-- Device `d` after a failed transaction to it: it is in doubt about the pair of its own slot (R159, R174). -/
def doubtSlot (draw : Nat) (buf : List Byte) (d : Nat) (c : ChipRegs) : ChipRegs :=
  match buf[slotOffset d]? with
  | some reg => doubtPair draw d reg.toNat c
  | none => c

/-- The chips after a transaction to device `addr`: each has latched its pair if it was answered success (R158); if it was answered failure
the target is in doubt about its pair (R159, R174), and no other chip changes (log 11). -/
def chipsAfter (ok : Bool) (draw addr : Nat) (buf : List Byte) (chips : List ChipRegs) : List ChipRegs :=
  if ok then chips.mapIdx (latchSlot draw buf) else chips.modify addr (doubtSlot draw buf addr)

/-! ### The transport port (R44) -/

/-- The transport's next answer, and the state with that answer taken; none if the transport never answers. -/
def takeAnswer (s : State) : Option (Bool × State) :=
  match s.replies with
  | [] => some (Config.freeAnswer s.draws, { s with draws := s.draws + 1 })
  | .success :: rest => some (true, { s with replies := rest, draws := s.draws + 1 })
  | .failure :: rest => some (false, { s with replies := rest, draws := s.draws + 1 })
  | .never :: _ => none

/-- `Transport(buf)`: present the whole buffer, wait for the answer, record both (R15, R44). -/
def transport (buf : List Byte) (s : State) : Except Fault (Bool × State) :=
  match takeAnswer s with
  | some (ok, s') => .ok (ok, { s' with calls := s'.calls ++ [⟨buf, ok⟩] })
  | none => .error .transportSilent

/-- A transaction to device `addr`: the transport's call, and what the chips make of it. -/
def send (addr : Nat) (buf : List Byte) (s : State) : Except Fault (Bool × State) :=
  match transport buf s with
  | .ok (ok, s') => .ok (ok, { s' with chips := chipsAfter ok s.draws addr buf s'.chips })
  | .error f => .error f

/-! ### The register-write primitive (40_init_and_register_write.md R101) -/

/-- `WriteRegister(addr, reg, value)`. -/
def writeRegister (addr reg : Nat) (value : Byte) (s : State) : Call :=
  if s.noDevice addr || decide (regLast < reg) then .ok (.outOfBounds, s)
  else
    match send addr (transaction s.params.chainLength addr reg value) s with
    | .ok (ok, s') => .ok (statusOfAnswer ok, s')
    | .error f => .error f

/-! ### Write-through (42_frame_operations.md R120) -/

/-- One row: update the frame, then write the whole updated byte to its digit register. -/
def writeThrough (addr r : Nat) (f : Byte → Byte) (s : State) : Call :=
  match updateRow addr r f s with
  | .ok (v, s') => writeRegister addr (digitRegister r) v s'
  | .error e => .error e

/-- The steps of a composite, one row each, in order, stopping at the first that does not return `Ok` (R26, R121, R127). -/
def writeRows (addr : Nat) (f : Nat → Byte → Byte) : List Nat → State → Call
  | [], s => .ok (.ok, s)
  | r :: rest, s =>
    match writeThrough addr r (f r) s with
    | .ok (st, s') => if st.isOk then writeRows addr f rest s' else .ok (st, s')
    | .error e => .error e

/-! ### A chip's side (R158) -/

/-- The chip in slot `slot` latches a pair; nothing else changes. -/
def latchAt (slot reg : Nat) (value : Byte) (s : State) : Host.Outcome State Fault Refusal :=
  if s.noDevice slot then .fault .noSuchSlot
  else .next { s with chips := s.chips.modify slot (latchPair s.draws slot reg value), draws := s.draws + 1 }

/-! ### Requests -/

/-- The next request, and the state with it taken (R13, R170). -/
def takeRequest (s : State) : Option (Request × State) :=
  match s.requests with
  | [] => none
  | r :: rest => some (r, { s with requests := rest })

/-- Bits that are no instruction: a word is the spec's illegal command (R148), a pair is outside the encoding (log 16). -/
def reject : Reject → Host.Outcome State Fault Refusal
  | .reservedBits => .fault .illegalCommand
  | .reservedOpcode => .fault .illegalCommand
  | .malformedPair => .refused .malformedPair

/-- Put a request where the step takes its next one. -/
def State.present (s : State) (r : Request) : State := { s with requests := r :: s.requests }

end Sys2Proof.Machine
end

