-- ==== Sys2Proof/Machine/Chain.lean ====
section
/-! DEFINITION. The wire pairs (20_memory.md R51): what the chip in whose slot a pair stands does with it (60_exceptions.md R158 to R160,
log 13). -/

namespace Sys2Proof.Machine

/-- NOOP: the chip ignores the value (R158). -/
def execNoop (slot : Nat) (value : Byte) (s : State) : Host.Outcome State Fault Refusal := latchAt slot regNoop value s

/-- DIGIT_0: digit register 0, row 0 (R160). -/
def execDigit0 (slot : Nat) (value : Byte) (s : State) : Host.Outcome State Fault Refusal := latchAt slot (digitRegister 0) value s

/-- DIGIT_1: digit register 1, row 1 (R160). -/
def execDigit1 (slot : Nat) (value : Byte) (s : State) : Host.Outcome State Fault Refusal := latchAt slot (digitRegister 1) value s

/-- DIGIT_2: digit register 2, row 2 (R160). -/
def execDigit2 (slot : Nat) (value : Byte) (s : State) : Host.Outcome State Fault Refusal := latchAt slot (digitRegister 2) value s

/-- DIGIT_3: digit register 3, row 3 (R160). -/
def execDigit3 (slot : Nat) (value : Byte) (s : State) : Host.Outcome State Fault Refusal := latchAt slot (digitRegister 3) value s

/-- DIGIT_4: digit register 4, row 4 (R160). -/
def execDigit4 (slot : Nat) (value : Byte) (s : State) : Host.Outcome State Fault Refusal := latchAt slot (digitRegister 4) value s

/-- DIGIT_5: digit register 5, row 5 (R160). -/
def execDigit5 (slot : Nat) (value : Byte) (s : State) : Host.Outcome State Fault Refusal := latchAt slot (digitRegister 5) value s

/-- DIGIT_6: digit register 6, row 6 (R160). -/
def execDigit6 (slot : Nat) (value : Byte) (s : State) : Host.Outcome State Fault Refusal := latchAt slot (digitRegister 6) value s

/-- DIGIT_7: digit register 7, row 7 (R160). -/
def execDigit7 (slot : Nat) (value : Byte) (s : State) : Host.Outcome State Fault Refusal := latchAt slot (digitRegister 7) value s

/-- DECODE_MODE (R160: named only). -/
def execDecodeMode (slot : Nat) (value : Byte) (s : State) : Host.Outcome State Fault Refusal := latchAt slot regDecodeMode value s

/-- INTENSITY_REG: the brightness level (R160). -/
def execIntensityReg (slot : Nat) (value : Byte) (s : State) : Host.Outcome State Fault Refusal := latchAt slot regIntensity value s

/-- SCAN_LIMIT (R160: named only). -/
def execScanLimit (slot : Nat) (value : Byte) (s : State) : Host.Outcome State Fault Refusal := latchAt slot regScanLimit value s

/-- SHUTDOWN_REG: 1 = normal operation, 0 = shutdown (R160). -/
def execShutdownReg (slot : Nat) (value : Byte) (s : State) : Host.Outcome State Fault Refusal := latchAt slot regShutdown value s

/-- RESERVED_0D: what the chip does is not in the source; its registers are unknown afterwards (R85, U4, log 12). -/
def execReserved0d (slot : Nat) (value : Byte) (s : State) : Host.Outcome State Fault Refusal := latchAt slot regReserved0D value s

/-- RESERVED_0E: as RESERVED_0D (R85, U4, log 12). -/
def execReserved0e (slot : Nat) (value : Byte) (s : State) : Host.Outcome State Fault Refusal := latchAt slot regReserved0E value s

/-- DISPLAY_TEST_REG: 1 = test on, 0 = test off (R160). -/
def execDisplayTestReg (slot : Nat) (value : Byte) (s : State) : Host.Outcome State Fault Refusal := latchAt slot regDisplayTest value s

end Sys2Proof.Machine
end

