-- ==== Sys2Proof/Machine/Control.lean ====
section
/-! DEFINITION. The device control operations (41_device_control.md): one register write each, no state of the block touched (R113). -/

namespace Sys2Proof.Machine

/-- SHUTDOWN (R110): the Boolean is inverted on the way out. -/
def execShutdown (addr : Nat) (s : Bool) (st : State) : Host.Outcome State Fault Refusal :=
  whenBound st (writeRegister addr regShutdown (shutdownValue s))

/-- INTENSITY (R111): the level is checked before any write. -/
def execIntensity (addr level : Nat) (st : State) : Host.Outcome State Fault Refusal :=
  whenBound st fun st =>
    if levelLast < level then .ok (.outOfBounds, st) else writeRegister addr regIntensity (levelByte level) st

/-- DISPTEST (R112): the Boolean is not inverted. -/
def execDisptest (addr : Nat) (s : Bool) (st : State) : Host.Outcome State Fault Refusal :=
  whenBound st (writeRegister addr regDisplayTest (boolByte s))

end Sys2Proof.Machine
end

