-- ==== Sys2Proof/Machine/Frame.lean ====
section
/-! DEFINITION. The frame operations (42_frame_operations.md): every operand is checked first (R143), then each row is updated and written
through (R120). -/

namespace Sys2Proof.Machine

/-- CLEAR (R121). -/
def execClear (addr : Nat) (st : State) : Host.Outcome State Fault Refusal :=
  whenBound st fun st =>
    if st.noDevice addr then .ok (.outOfBounds, st) else writeRows addr (fun _ _ => 0x00) rowsAscending st

/-- SETLED (R123). -/
def execSetled (addr x y : Nat) (s : Bool) (st : State) : Host.Outcome State Fault Refusal :=
  whenBound st fun st =>
    if st.noDevice addr || decide (lineLast < x) || decide (lineLast < y) then .ok (.outOfBounds, st)
    else writeThrough addr x (setColumnBit y s) st

/-- SETROW (R125). -/
def execSetrow (addr row : Nat) (value : Operand) (st : State) : Host.Outcome State Fault Refusal :=
  whenBound st fun st =>
    if st.noDevice addr || decide (lineLast < row) then .ok (.outOfBounds, st)
    else writeThrough addr row (fun _ => valueByte value) st

/-- SETCOL (R127). -/
def execSetcol (addr column : Nat) (value : Operand) (st : State) : Host.Outcome State Fault Refusal :=
  whenBound st fun st =>
    if st.noDevice addr || decide (lineLast < column) then .ok (.outOfBounds, st)
    else writeRows addr (fun r => setColumnBit column (columnBit st.params value r)) (setcolOrder st.params) st

end Sys2Proof.Machine
end

