-- ==== Sys2Proof/Machine/Init.lean ====
section
/-! DEFINITION. Initialization and the register-write primitive (40_init_and_register_write.md). -/

namespace Sys2Proof.Machine

/-- INIT (R100): no transport call; with no transport supplied nothing changes. -/
def execInit (t : Bool) (s : State) : Host.Outcome State Fault Refusal :=
  if t then .next (endCommand .ok { s with bound := true, frame := zeroFrame s.params.chainLength })
  else .next (endCommand .invalidArgument s)

/-- WRREG (R101), called directly (log 14). -/
def execWrreg (addr reg : Nat) (value : Operand) (s : State) : Host.Outcome State Fault Refusal :=
  respond (writeRegister addr reg (valueByte value) s)

end Sys2Proof.Machine
end

