-- ==== Sys2Proof/Machine/Dispatch.lean ====
section
/-! DEFINITION. One arm per constructor of `Instr`. -/

namespace Sys2Proof.Machine

def exec (i : Instr) (s : State) : Host.Outcome State Fault Refusal :=
  match i with
  -- 40_init_and_register_write.md, 41_device_control.md, 42_frame_operations.md
  | .init t => Sys2Proof.Machine.execInit t s
  | .shutdown addr b => Sys2Proof.Machine.execShutdown addr b s
  | .intensity addr level => Sys2Proof.Machine.execIntensity addr level s
  | .disptest addr b => Sys2Proof.Machine.execDisptest addr b s
  | .clear addr => Sys2Proof.Machine.execClear addr s
  | .setled addr x y b => Sys2Proof.Machine.execSetled addr x y b s
  | .setrow addr row value => Sys2Proof.Machine.execSetrow addr row value s
  | .setcol addr column value => Sys2Proof.Machine.execSetcol addr column value s
  | .wrreg addr reg value => Sys2Proof.Machine.execWrreg addr reg value s
  -- 20_memory.md R51
  | .noop slot value => Sys2Proof.Machine.execNoop slot value s
  | .digit0 slot value => Sys2Proof.Machine.execDigit0 slot value s
  | .digit1 slot value => Sys2Proof.Machine.execDigit1 slot value s
  | .digit2 slot value => Sys2Proof.Machine.execDigit2 slot value s
  | .digit3 slot value => Sys2Proof.Machine.execDigit3 slot value s
  | .digit4 slot value => Sys2Proof.Machine.execDigit4 slot value s
  | .digit5 slot value => Sys2Proof.Machine.execDigit5 slot value s
  | .digit6 slot value => Sys2Proof.Machine.execDigit6 slot value s
  | .digit7 slot value => Sys2Proof.Machine.execDigit7 slot value s
  | .decodeMode slot value => Sys2Proof.Machine.execDecodeMode slot value s
  | .intensityReg slot value => Sys2Proof.Machine.execIntensityReg slot value s
  | .scanLimit slot value => Sys2Proof.Machine.execScanLimit slot value s
  | .shutdownReg slot value => Sys2Proof.Machine.execShutdownReg slot value s
  | .reserved0d slot value => Sys2Proof.Machine.execReserved0d slot value s
  | .reserved0e slot value => Sys2Proof.Machine.execReserved0e slot value s
  | .displayTestReg slot value => Sys2Proof.Machine.execDisplayTestReg slot value s

end Sys2Proof.Machine
end

