-- ==== Sys2Proof/Machine/Step.lean ====
section
/-! DEFINITION. One step: one request (00_scope.md R5, 40_init_and_register_write.md R102). -/

namespace Sys2Proof.Machine

/-- An idle block waits, and nothing changes; otherwise the next request is taken and handled to its end (R102, R170). -/
def step (s : State) : Host.Outcome State Fault Refusal :=
  match takeRequest s with
  | none => .next s
  | some (r, s') =>
    match decode r with
    | .ok i => exec i s'
    | .error e => reject e

/-- The state in which the very next step runs a word of the opcode table (log 27). -/
def State.withFetchWord (s : State) (nbits w : Nat) : State :=
  match tableRequest nbits w with
  | some r => s.present r
  | none => s

end Sys2Proof.Machine
end

