-- ==== Sys2Proof/Machine/Assembler.lean ====
section
/-! DEFINITION. The textual form of a command and its word (30_encoding.md R90, log 26). -/

namespace Sys2Proof

/-- One digit in a base up to 16; capital and small letters both. -/
def digitValue (base : Nat) (c : Char) : Option Nat :=
  let n :=
    if '0' ≤ c ∧ c ≤ '9' then c.toNat - '0'.toNat
    else if 'a' ≤ c ∧ c ≤ 'f' then c.toNat - 'a'.toNat + 10
    else if 'A' ≤ c ∧ c ≤ 'F' then c.toNat - 'A'.toNat + 10
    else base
  if n < base then some n else none

/-- Digits, most significant first, onto what has been read. -/
def readDigits (base : Nat) : Nat → List Char → Option Nat
  | acc, [] => some acc
  | acc, c :: cs =>
    match digitValue base c with
    | some d => readDigits base (acc * base + d) cs
    | none => none

/-- A numeral has at least one digit. -/
def readNumeral (base : Nat) (cs : List Char) : Option Nat := if cs.isEmpty then none else readDigits base 0 cs

/-- Decimal, `0x` hexadecimal or `0b` binary. -/
def readNumber : List Char → Option Nat
  | '0' :: 'x' :: cs => readNumeral 16 cs
  | '0' :: 'b' :: cs => readNumeral 2 cs
  | cs => readNumeral 10 cs

/-- Without the blanks at either end. -/
def trim (cs : List Char) : List Char := ((cs.dropWhile (· == ' ')).reverse.dropWhile (· == ' ')).reverse

/-- The pieces between commas. -/
def splitCommas : List Char → List (List Char)
  | [] => [[]]
  | c :: cs =>
    match splitCommas cs with
    | [] => [[c]]
    | p :: ps => if c == ',' then [] :: p :: ps else (c :: p) :: ps

/-- A Boolean operand is written `0` or `1` (R90). DESIGN CHOICE: it is read as a number first, so every numeral of value 0 or 1 is accepted, such
as `0x1`, `0b1` or `01` (log 26). -/
def readBool : Nat → Option Bool
  | 0 => some false
  | 1 => some true
  | _ => none

/-- A value operand. -/
def readValue (n : Nat) : Option Operand := if isOperand n then some (BitVec.ofNat operandBits n) else none

/-- A line of R90's list: a mnemonic and its operands, in the order of the source's call. -/
structure SyntaxRow where
  mnemonic : String
  read : List Nat → Option Instr

/-- R90. -/
def syntaxTable : List SyntaxRow :=
  [ ⟨"INIT", fun ops => match ops with | [t] => (readBool t).map .init | _ => none⟩,
    ⟨"SHUTDOWN", fun ops => match ops with | [addr, s] => (readBool s).map (.shutdown addr) | _ => none⟩,
    ⟨"INTENSITY", fun ops => match ops with | [addr, level] => some (.intensity addr level) | _ => none⟩,
    ⟨"DISPTEST", fun ops => match ops with | [addr, s] => (readBool s).map (.disptest addr) | _ => none⟩,
    ⟨"CLEAR", fun ops => match ops with | [addr] => some (.clear addr) | _ => none⟩,
    ⟨"SETLED", fun ops => match ops with | [addr, x, y, s] => (readBool s).map (.setled addr x y) | _ => none⟩,
    ⟨"SETROW", fun ops => match ops with | [addr, row, value] => (readValue value).map (.setrow addr row) | _ => none⟩,
    ⟨"SETCOL", fun ops => match ops with | [addr, column, value] => (readValue value).map (.setcol addr column) | _ => none⟩ ]

/-- A mnemonic and its operands as an instruction whose operands fit their fields. -/
def assembleOperands (mnemonic : List Char) (ops : List Nat) : Option Instr :=
  match syntaxTable.find? fun row => row.mnemonic.toList == mnemonic with
  | some row => (row.read ops).filter Instr.wellFormed
  | none => none

/-- A line of text as an instruction. -/
def readLine (line : List Char) : Option Instr :=
  let text := trim line
  let mnemonic := text.takeWhile fun c => !(c == ' ')
  let rest := text.dropWhile fun c => !(c == ' ')
  match (splitCommas rest).mapM fun piece => readNumber (trim piece) with
  | some ops => assembleOperands mnemonic ops
  | none => none

/-- The word of a command; `rsv` and every unused field are zero (R90). -/
def commandWordOf (i : Instr) : Option Word :=
  match encode i with
  | .command w => some w
  | .primitive _ _ | .pair _ _ => none

/-- Text to word (R90). -/
def assemble (line : String) : Option Word := (readLine line.toList).bind commandWordOf

end Sys2Proof
end

