-- ==== Sys2Proof/Safety.lean ====
section
/-! DEFINITION. What claims about the machine are stated in: the shape every run keeps, what a transaction looks like, what the
transport will answer, what a command shows, and when the display mirrors the frame. -/

namespace Sys2Proof

/-- The operands that 60_exceptions.md R142 answers with `OutOfBounds`, for a chain of `n` devices: its table, row by row. -/
def Instr.outOfRange (n : Nat) : Instr → Prop
  | .shutdown addr _ => n ≤ addr
  | .intensity addr level => n ≤ addr ∨ 15 < level
  | .disptest addr _ => n ≤ addr
  | .clear addr => n ≤ addr
  | .setled addr x y _ => n ≤ addr ∨ 7 < x ∨ 7 < y
  | .setrow addr row _ => n ≤ addr ∨ 7 < row
  | .setcol addr column _ => n ≤ addr ∨ 7 < column
  | .wrreg addr reg _ => n ≤ addr ∨ 0x0F < reg
  | .init _ | .noop _ _ | .digit0 _ _ | .digit1 _ _ | .digit2 _ _ | .digit3 _ _ | .digit4 _ _ | .digit5 _ _ | .digit6 _ _
  | .digit7 _ _ | .decodeMode _ _ | .intensityReg _ _ | .scanLimit _ _ | .shutdownReg _ _ | .reserved0d _ _ | .reserved0e _ _
  | .displayTestReg _ _ => False

/-- The frame bytes an instruction may write: the column "writes" of 10_state.md R22. -/
def Instr.mayWrite : Instr → Nat → Nat → Prop
  | .init t, _, _ => t = true
  | .clear addr, d, _ => d = addr
  | .setled addr x _ _, d, r => d = addr ∧ r = x
  | .setrow addr row _, d, r => d = addr ∧ r = row
  | .setcol addr _ _, d, _ => d = addr
  | .shutdown _ _, _, _ | .intensity _ _, _, _ | .disptest _ _, _, _ | .wrreg _ _ _, _, _ | .noop _ _, _, _ | .digit0 _ _, _, _
  | .digit1 _ _, _, _ | .digit2 _ _, _, _ | .digit3 _ _, _, _ | .digit4 _ _, _, _ | .digit5 _ _, _, _ | .digit6 _ _, _, _
  | .digit7 _ _, _, _ | .decodeMode _ _, _, _ | .intensityReg _ _, _, _ | .scanLimit _ _, _, _ | .shutdownReg _ _, _, _
  | .reserved0d _ _, _, _ | .reserved0e _ _, _, _ | .displayTestReg _ _, _, _ => False

/-- The instructions that return a status: the host commands and the primitive (60_exceptions.md R140). -/
def Instr.returnsStatus : Instr → Bool
  | .wrreg _ _ _ => true
  | i => i.isCommand

end Sys2Proof

namespace Sys2Proof.Machine

/-- The buffer of a targeted write: `2*N` bytes, the pair in the target's slot, register byte first, `0x00 0x00` in every other slot
(20_memory.md R40 to R42, R45). -/
structure IsTargetedWrite (n addr reg : Nat) (value : Byte) (buf : List Byte) : Prop where
  length : buf.length = 2 * n
  register : buf[2 * addr]? = some (BitVec.ofNat 8 reg)
  value : buf[2 * addr + 1]? = some value
  padding : ∀ d, d < n → d ≠ addr → buf[2 * d]? = some 0x00 ∧ buf[2 * d + 1]? = some 0x00

/-- The shape every run keeps: a legal chain length, a frame and a chain of `N` devices, and only targeted writes to registers
`0x00..0x0F` of existing devices on the wire. -/
structure State.Inv (s : State) : Prop where
  params : s.params.wellFormed = true
  frame : s.frame.length = s.params.chainLength
  chips : s.chips.length = s.params.chainLength
  calls : ∀ c ∈ s.calls, ∃ addr reg value, addr < s.params.chainLength ∧ reg ≤ 0x0F ∧
    IsTargetedWrite s.params.chainLength addr reg value c.buf

/-- What the transport answers at the `k`-th call from now; none if it never does (20_memory.md R44, U9). -/
def State.answerAt (s : State) (k : Nat) : Option Bool :=
  match s.replies[k]? with
  | some .success => some true
  | some .failure => some false
  | some .never => none
  | none => some (Config.freeAnswer (s.draws + k))

/-- What a command shows (00_scope.md R15): its status, its transport calls in order, the frame after it. -/
structure Observation where
  status : Option Status
  calls : List TransportCall
  frame : List Rows
deriving DecidableEq, Repr

/-- The observation of a command that took the machine from `s` to `t`. -/
def observation (s t : State) : Observation := ⟨t.result, t.calls.drop s.calls.length, t.frame⟩

/-- One register write to an existing device, answered `ok`: what it does to everything but the frame and the flag `bound` (R101, R158, R159, R174). -/
structure Wrote (addr reg : Nat) (value : Byte) (ok : Bool) (s t : State) : Prop where
  params : t.params = s.params
  requests : t.requests = s.requests
  replies : t.replies = s.replies.tail
  status : t.result = some (if ok then .ok else .transportError)
  call : ∃ buf, IsTargetedWrite s.params.chainLength addr reg value buf ∧ t.calls = s.calls ++ [⟨buf, ok⟩]
  otherChips : ∀ d, d ≠ addr → t.chips[d]? = s.chips[d]?
  /-- An accepted pair with a register address that is meaningful for writes is in the register afterwards. -/
  written : ok = true → reg ≠ 0x00 → reg ≠ 0x0D → reg ≠ 0x0E → t.chipByte addr reg = some value
  /-- and no other register of the device has changed (the no-op changes none). -/
  kept : ok = true → reg ≠ 0x0D → reg ≠ 0x0E → ∀ a, a ≠ reg ∨ reg = 0x00 → t.chipByte addr a = s.chipByte addr a
  /-- After a failure the digit registers of the rows that were not written are certain (R161 (c), R174). -/
  certain : ok = false → reg ≠ 0x0D → reg ≠ 0x0E → ∀ r, r ≤ 7 → 0x01 + r ≠ reg → t.chipByte addr (0x01 + r) = s.chipByte addr (0x01 + r)

/-- Row `(d, r)` of the display mirrors the frame (60_exceptions.md R161). -/
def State.InSync (s : State) (d r : Nat) : Prop := s.frameByte d r = s.chipByte d (0x01 + r)

/-- The whole display mirrors the frame. -/
def State.Mirrored (s : State) : Prop := ∀ d r, d < s.params.chainLength → r ≤ 7 → s.InSync d r

/-- A host that issues commands in order and stops at the first that does not return `Ok` (30_encoding.md R91). -/
def runWhileOk : List Instr → State → Host.Outcome State Fault Refusal
  | [], s => .next s
  | i :: rest, s =>
    match exec i s with
    | .next t => if t.result = some .ok then runWhileOk rest t else .next t
    | .fault f => .fault f
    | .refused r => .refused r

/-- Two outcomes that differ in the chips' registers at most. -/
def SameButChips : Host.Outcome State Fault Refusal → Host.Outcome State Fault Refusal → Prop
  | .next t, .next u => ∃ chips, u = { t with chips := chips }
  | .fault f, .fault g => f = g
  | .refused f, .refused g => f = g
  | _, _ => False

/-- A safe run: `k` steps with no fault and no refusal. -/
def SafeRun (k : Nat) (s : State) : Prop := ∃ t, Sys2Proof.core.run k s = .next t

end Sys2Proof.Machine
end

