-- ==== Sys2Proof/Certificates/Slice0/Obligations.lean ====
section
/-! DEFINITION. The statements for the provers. -/

open Sys2Proof Sys2Proof.Machine

/-! ### Encoding -/

/-- 30_encoding.md R78 to R81, R70, R51: nothing of an instruction is lost in its bits. The command layout is the spec's own decision D5
(log 22), the register numbers D1 (log 19), the slot of a pair the model's (log 13). -/
def Obligations.DecodeOfEncodeIsTheInstruction : Prop :=
  ∀ i : Instr, i.wellFormed = true → decode (encode i) = .ok i

/-- R78, R79, R80, R81: the word `op ++ 000 ++ s ++ addr ++ a ++ b` for every opcode and every field, unused ones included (decisions D5,
D17; log 22). -/
def Obligations.CommandWordsDecodeAsTheLayoutSays : Prop :=
  ∀ (s : BitVec 1) (addr a b : BitVec 8),
    decode (.command (0x0#4 ++ 0#3 ++ s ++ addr ++ a ++ b)) = .ok (.init (s == 1#1)) ∧
    decode (.command (0x1#4 ++ 0#3 ++ s ++ addr ++ a ++ b)) = .ok (.shutdown addr.toNat (s == 1#1)) ∧
    decode (.command (0x2#4 ++ 0#3 ++ s ++ addr ++ a ++ b)) = .ok (.intensity addr.toNat a.toNat) ∧
    decode (.command (0x3#4 ++ 0#3 ++ s ++ addr ++ a ++ b)) = .ok (.disptest addr.toNat (s == 1#1)) ∧
    decode (.command (0x4#4 ++ 0#3 ++ s ++ addr ++ a ++ b)) = .ok (.clear addr.toNat) ∧
    decode (.command (0x5#4 ++ 0#3 ++ s ++ addr ++ a ++ b)) = .ok (.setled addr.toNat a.toNat b.toNat (s == 1#1)) ∧
    decode (.command (0x6#4 ++ 0#3 ++ s ++ addr ++ a ++ b)) = .ok (.setrow addr.toNat a.toNat b) ∧
    decode (.command (0x7#4 ++ 0#3 ++ s ++ addr ++ a ++ b)) = .ok (.setcol addr.toNat a.toNat b)

/-- R82, R83: reserved bits, then reserved opcodes (decision D16; log 22). -/
def Obligations.ReservedCommandWordsAreRejected : Prop :=
  ∀ (op : BitVec 4) (rsv : BitVec 3) (rest : BitVec 25),
    (rsv ≠ 0#3 → decode (.command (op ++ rsv ++ rest)) = .error .reservedBits) ∧
    (8 ≤ op.toNat → decode (.command (op ++ 0#3 ++ rest)) = .error .reservedOpcode)

/-- R51, R70: the sixteen pairs by their register byte, and what is no pair; the primitive takes every register byte (R101). The numbers are
decision D1 (log 19), the ports the model's (log 13, log 14, log 16). -/
def Obligations.PairsDecodeByTheirRegisterByte : Prop :=
  ∀ slot reg value : BitVec 8,
    decode (.pair slot (0x00#8 ++ value)) = .ok (.noop slot.toNat value) ∧
    decode (.pair slot (0x01#8 ++ value)) = .ok (.digit0 slot.toNat value) ∧
    decode (.pair slot (0x02#8 ++ value)) = .ok (.digit1 slot.toNat value) ∧
    decode (.pair slot (0x03#8 ++ value)) = .ok (.digit2 slot.toNat value) ∧
    decode (.pair slot (0x04#8 ++ value)) = .ok (.digit3 slot.toNat value) ∧
    decode (.pair slot (0x05#8 ++ value)) = .ok (.digit4 slot.toNat value) ∧
    decode (.pair slot (0x06#8 ++ value)) = .ok (.digit5 slot.toNat value) ∧
    decode (.pair slot (0x07#8 ++ value)) = .ok (.digit6 slot.toNat value) ∧
    decode (.pair slot (0x08#8 ++ value)) = .ok (.digit7 slot.toNat value) ∧
    decode (.pair slot (0x09#8 ++ value)) = .ok (.decodeMode slot.toNat value) ∧
    decode (.pair slot (0x0A#8 ++ value)) = .ok (.intensityReg slot.toNat value) ∧
    decode (.pair slot (0x0B#8 ++ value)) = .ok (.scanLimit slot.toNat value) ∧
    decode (.pair slot (0x0C#8 ++ value)) = .ok (.shutdownReg slot.toNat value) ∧
    decode (.pair slot (0x0D#8 ++ value)) = .ok (.reserved0d slot.toNat value) ∧
    decode (.pair slot (0x0E#8 ++ value)) = .ok (.reserved0e slot.toNat value) ∧
    decode (.pair slot (0x0F#8 ++ value)) = .ok (.displayTestReg slot.toNat value) ∧
    (0x0F < reg.toNat → decode (.pair slot (reg ++ value)) = .error .malformedPair) ∧
    decode (.primitive slot (reg ++ value)) = .ok (.wrreg slot.toNat reg.toNat value)

/-- R78, R7: a decoded operand is a number of its field's width (decision D4; log 21). -/
def Obligations.DecodedInstructionsFitTheirFields : Prop :=
  ∀ (r : Request) (i : Instr), decode r = .ok i → i.wellFormed = true

/-- R90 and 95_test_vectors.md 2.1, S1, S8: words the spec writes out (decision D5; log 22). -/
def Obligations.SpecExampleWordsDecode : Prop :=
  decode (.command 0x51000302) = .ok (.setled 0 3 2 true) ∧
  decode (.command 0x600004B0) = .ok (.setrow 0 4 0xB0) ∧
  decode (.command 0x01ABCDEF) = .ok (.init true) ∧
  decode (.command 0x00FFFFFF) = .ok (.init false) ∧
  decode (.command 0x41000000) = .ok (.clear 0) ∧
  decode (.command 0x11000000) = .ok (.shutdown 0 true) ∧
  decode (.command 0x20010F00) = .ok (.intensity 1 15) ∧
  decode (.command 0x31020000) = .ok (.disptest 2 true) ∧
  decode (.command 0x700102C1) = .ok (.setcol 1 2 0xC1) ∧
  decode (.command 0x5E000302) = .error .reservedBits ∧
  decode (.command 0xF1234567) = .error .reservedOpcode

/-- R90: the textual form, with the words of the spec's own examples (decision D5; log 26). -/
def Obligations.AssemblerGivesTheSpecsWords : Prop :=
  assemble "SETLED 0, 3, 2, 1" = some 0x51000302 ∧
  assemble "SETROW 0, 4, 0xB0" = some 0x600004B0 ∧
  assemble "SETROW 0, 4, 0b10110000" = some 0x600004B0 ∧
  assemble "INIT 1" = some 0x01000000 ∧
  assemble "CLEAR 256" = none

/-! ### The step and the lifecycle -/

/-- R102, R5: the next request, when it decodes to an instruction, is taken and that instruction runs to its end (log 1, log 10). -/
def Obligations.StepRunsTheDecodedRequest : Prop :=
  ∀ (s : State) (r : Request) (rest : List Request) (i : Instr), s.requests = r :: rest → decode r = .ok i →
    step s = exec i { s with requests := rest }

/-- R82, R83, R102 step 1, R148: an illegal word faults whatever the state is, bound or not (decision D16); a pair outside the encoding is
refused (log 16). -/
def Obligations.BitsThatAreNoInstructionStopTheStep : Prop :=
  ∀ (s : State) (rest : List Request),
    (∀ w : Word, s.requests = .command w :: rest → w.extractLsb' 25 3 ≠ 0#3 ∨ 8 ≤ (w.extractLsb' 28 4).toNat →
      step s = .fault .illegalCommand) ∧
    (∀ (slot : Byte) (p : Pair), s.requests = .pair slot p :: rest → 0x0F < (p.extractLsb' 8 8).toNat →
      step s = .refused .malformedPair)

/-- The model's choice, log 1: with nothing presented the block waits and nothing changes. -/
def Obligations.IdleBlockWaits : Prop :=
  ∀ s : State, s.requests = [] → step s = .next s

/-- R147, R102 step 2, R154: before the first successful INIT every other command faults, whatever its operands (decision D11; log 9). -/
def Obligations.CommandsBeforeInitFault : Prop :=
  ∀ (i : Instr) (s : State), i.isCommand = true → (∀ t, i ≠ .init t) → s.bound = false → exec i s = .fault .unbound

/-- R33: what a successful INIT leaves; nothing else changes, the chips' registers among it. -/
def Obligations.InitZeroesTheFrameAndBinds : Prop :=
  ∀ s : State, ∃ t, exec (.init true) s = .next t ∧
    (∀ d r, d < s.params.chainLength → r ≤ 7 → t.frameByte d r = some 0x00) ∧ t.frame.length = s.params.chainLength ∧ t.bound = true ∧
    t = { s with frame := t.frame, bound := true, result := some .ok }

/-- R100, R141: INIT with no transport supplied changes nothing but the status (decision D12; log 28). -/
def Obligations.InitWithoutTransportChangesNothing : Prop :=
  ∀ s : State, exec (.init false) s = .next { s with result := some .invalidArgument }

/-- R23, R154: only a successful INIT writes `bound`, and only to true (decision D10). -/
def Obligations.OnlyInitWritesBound : Prop :=
  ∀ (i : Instr) (s t : State), exec i s = .next t → (t.bound = s.bound ∧ i ≠ .init true) ∨ (i = .init true ∧ t.bound = true)

/-- R6, R170: no instruction changes the configuration or what the host presents next (log 1, log 2). -/
def Obligations.ConfigurationAndRequestsNeverChange : Prop :=
  ∀ (i : Instr) (s t : State), exec i s = .next t → t.params = s.params ∧ t.requests = s.requests

/-- R34, R171: power-on (decision D10); the empty ports are the model's (log 1, log 6, log 7), the chain length is the default (log 3). -/
def Obligations.ResetIsPowerOn : Prop :=
  State.reset.bound = false ∧ State.reset.params.chainLength = 1 ∧ State.reset.frame.length = 1 ∧ State.reset.result = none ∧
  State.reset.calls = [] ∧ State.reset.requests = []

/-- R33, R34, R20: power-on with any legal configuration has the shape every run keeps. -/
def Obligations.PowerOnMeetsTheInvariant : Prop :=
  ∀ p : Params, p.wellFormed = true → (State.powerOn p).Inv

/-- R20, R34, R40, R103: every step keeps the shape, for every request and every answer of the transport. -/
def Obligations.EveryStepKeepsTheInvariant : Prop :=
  ∀ s t : State, s.Inv → step s = .next t → t.Inv

/-- R6, R23, R54: along any run the configuration stays, a bound block stays bound, the shape is kept and the transactions made stay made. -/
def Obligations.RunsKeepConfigurationLifecycleAndHistory : Prop :=
  ∀ (k : Nat) (s t : State), Sys2Proof.core.run k s = .next t →
    t.params = s.params ∧ (s.bound = true → t.bound = true) ∧ (∃ new, t.calls = s.calls ++ new) ∧ (s.Inv → t.Inv)

/-! ### Transactions and the transport -/

/-- R40, R41, R42, R45: every transaction any instruction hands to the transport is a targeted write to the addressed device. -/
def Obligations.EveryTransactionIsATargetedWrite : Prop :=
  ∀ (i : Instr) (s t : State), exec i s = .next t →
    ∃ new, t.calls = s.calls ++ new ∧ ∀ c ∈ new, ∃ addr reg value,
      i.device = some addr ∧ addr < s.params.chainLength ∧ reg ≤ 0x0F ∧ IsTargetedWrite s.params.chainLength addr reg value c.buf

/-- R46: the transactions of an instruction, and everything else it does, are the same after any earlier transactions; each is zero outside
its one slot. -/
def Obligations.NoTransactionDependsOnEarlierOnes : Prop :=
  ∀ (i : Instr) (s t : State), exec i s = .next t → ∃ new, t.calls = s.calls ++ new ∧
    (∀ c ∈ new, ∃ addr reg value, IsTargetedWrite s.params.chainLength addr reg value c.buf) ∧
    ∀ earlier, exec i { s with calls := earlier } = .next { t with calls := earlier ++ new }

/-- R72, R84: the registers a host command can reach (numbers: decision D1; log 19). -/
def Obligations.CommandsReachOnlyTheirRegisters : Prop :=
  ∀ (i : Instr) (s t : State), i.isCommand = true → exec i s = .next t →
    ∃ new, t.calls = s.calls ++ new ∧ ∀ c ∈ new, ∃ addr reg value,
      reg ∈ [0x01, 0x02, 0x03, 0x04, 0x05, 0x06, 0x07, 0x08, 0x0A, 0x0C, 0x0F] ∧ IsTargetedWrite s.params.chainLength addr reg value c.buf

/-- R177: no command all of whose transactions succeed changes decode-mode, scan-limit, 0x0D or 0x0E of any chip (decision D1; log 19,
log 23). -/
def Obligations.UnreachableChipRegistersKeepTheirValues : Prop :=
  ∀ (i : Instr) (s t : State), i.isCommand = true → exec i s = .next t → t.result ≠ some .transportError →
    ∀ d, ∀ a ∈ [0x09, 0x0B, 0x0D, 0x0E], t.chipByte d a = s.chipByte d a

/-- R45, R158: no-op isolation at the chips, whatever the transport answers: no instruction changes a device it does not name (after a
failure too: log 11; chips change in no other way: log 23). -/
def Obligations.OnlyTheAddressedDeviceChanges : Prop :=
  ∀ (i : Instr) (s t : State), exec i s = .next t → ∀ d, i.device ≠ some d → t.chips[d]? = s.chips[d]?

/-- R44: a transport call records its buffer and answer and changes neither the frame nor the flag. -/
def Obligations.TransportChangesNeitherFrameNorBound : Prop :=
  ∀ (buf : List Byte) (s t : State) (ok : Bool), transport buf s = .ok (ok, t) →
    t.calls = s.calls ++ [⟨buf, ok⟩] ∧ t.frame = s.frame ∧ t.bound = s.bound

/-- R144, R55, R140: how the status stands to the answers: the command ends at the first failure, which is its last call. -/
def Obligations.FailureEndsTheCommandAtThatCall : Prop :=
  ∀ (i : Instr) (s t : State), i.returnsStatus = true → exec i s = .next t → ∃ new, t.calls = s.calls ++ new ∧
    (t.result = some .ok → ∀ c ∈ new, c.answer = true) ∧
    (t.result = some .transportError ↔ ∃ c ∈ new, c.answer = false) ∧
    (t.result = some .transportError → ∃ before last, new = before ++ [last] ∧ last.answer = false ∧ ∀ c ∈ before, c.answer = true) ∧
    (t.result = some .outOfBounds ∨ t.result = some .invalidArgument → new = [])

/-- R184: a command makes at most eight calls and ends, provided they are answered (rule derived by the spec from R128). -/
def Obligations.AnsweredCommandsEndWithinEightCalls : Prop :=
  ∀ (i : Instr) (s : State), s.Inv → i.isCommand = true → s.bound = true → (∀ k, k < 8 → s.answerAt k ≠ none) →
    ∃ t new, exec i s = .next t ∧ t.calls = s.calls ++ new ∧ new.length ≤ 8 ∧ t.result ≠ none

/-- R184, U9: a transport that does not answer the first call (the model's stop, log 8). -/
def Obligations.SilentTransportStopsTheCommand : Prop :=
  ∀ (i : Instr) (s : State), s.Inv → s.bound = true → i.returnsStatus = true → (∀ t, i ≠ .init t) →
    ¬ i.outOfRange s.params.chainLength → s.answerAt 0 = none → exec i s = .fault .transportSilent

/-! ### Validation -/

/-- R142: its table of checks is complete; whenever `OutOfBounds` is returned nothing but the status changes. That WRREG needs no bound block for it
is the model's choice (log 14). -/
def Obligations.OutOfRangeOperandsAnswerOutOfBounds : Prop :=
  ∀ (i : Instr) (s : State), (i.isCommand = true → s.bound = true) →
    (i.outOfRange s.params.chainLength → exec i s = .next { s with result := some .outOfBounds }) ∧
    (∀ t, i.returnsStatus = true → exec i s = .next t → t.result = some .outOfBounds → i.outOfRange s.params.chainLength)

/-- R89, R140: the numbers of the statuses (decision D6; log 22). -/
def Obligations.StatusNumbers : Prop :=
  Status.ok.code = 0 ∧ Status.invalidArgument.code = 1 ∧ Status.outOfBounds.code = 2 ∧ Status.transportError.code = 3

/-- R27: the status of one command has no effect on any later command. -/
def Obligations.EarlierStatusHasNoEffect : Prop :=
  ∀ (i : Instr) (s : State) (earlier : Option Status), i.returnsStatus = true →
    exec i { s with result := earlier } = exec i s

/-! ### The primitive and the control operations -/

/-- R101: WRREG, answered (the register check is decision D14; the direct call is the model's, log 14). The chips: R158 and R159 as the model reads
them, success means latched (log 23), a failure leaves the other chips and the other rows of the target alone (log 11). -/
def Obligations.WriteRegisterSendsThePair : Prop :=
  ∀ (s : State) (addr reg : Nat) (value : Byte) (ok : Bool), s.Inv → addr < s.params.chainLength → reg ≤ 0x0F →
    s.answerAt 0 = some ok →
    ∃ t, exec (.wrreg addr reg value) s = .next t ∧ Wrote addr reg value ok s t ∧ t.frame = s.frame ∧ t.bound = s.bound

/-- R110: the Boolean is inverted on the way out (register number: decision D1; log 19). The chips (R158, R159): log 11, log 23. -/
def Obligations.ShutdownWritesTheInvertedBoolean : Prop :=
  ∀ (s : State) (addr : Nat) (b ok : Bool), s.Inv → s.bound = true → addr < s.params.chainLength → s.answerAt 0 = some ok →
    ∃ t, exec (.shutdown addr b) s = .next t ∧ Wrote addr 0x0C (if b then 0x00 else 0x01) ok s t ∧
      t.frame = s.frame ∧ t.bound = s.bound

/-- R111: the level is written unchanged (register number: decision D1; log 19). The chips (R158, R159): log 11, log 23. -/
def Obligations.IntensityWritesTheLevel : Prop :=
  ∀ (s : State) (addr level : Nat) (ok : Bool), s.Inv → s.bound = true → addr < s.params.chainLength → level ≤ 15 →
    s.answerAt 0 = some ok →
    ∃ t v, exec (.intensity addr level) s = .next t ∧ v.toNat = level ∧ Wrote addr 0x0A v ok s t ∧
      t.frame = s.frame ∧ t.bound = s.bound

/-- R112: the Boolean is written as it is (register number: decision D1; log 19). The chips (R158, R159): log 11, log 23. -/
def Obligations.DisptestWritesTheBoolean : Prop :=
  ∀ (s : State) (addr : Nat) (b ok : Bool), s.Inv → s.bound = true → addr < s.params.chainLength → s.answerAt 0 = some ok →
    ∃ t, exec (.disptest addr b) s = .next t ∧ Wrote addr 0x0F (if b then 0x01 else 0x00) ok s t ∧
      t.frame = s.frame ∧ t.bound = s.bound

/-- R113, R178: whatever the status, the three control operations leave the block's state alone and make at most one call. -/
def Obligations.ControlOperationsLeaveTheBlockAlone : Prop :=
  ∀ (i : Instr) (s t : State) (addr level : Nat) (b : Bool), i ∈ [.shutdown addr b, .intensity addr level, .disptest addr b] →
    exec i s = .next t →
    t.frame = s.frame ∧ t.bound = s.bound ∧ ∃ new, t.calls = s.calls ++ new ∧ new.length ≤ 1 ∧ (t.result = some .outOfBounds → new = [])

/-! ### The frame operations -/

/-- R22: the frame changes nowhere but where the table says the operation writes. -/
def Obligations.FrameChangesOnlyWhereTheOperationWrites : Prop :=
  ∀ (i : Instr) (s t : State), exec i s = .next t → ∀ d r, ¬ i.mayWrite d r → t.frameByte d r = s.frameByte d r

/-- R125: SETROW, answered either way (register numbers: decision D1; the kept frame after a failure: D15; log 19, log 28). The chips (R158, R159):
log 11, log 23. -/
def Obligations.SetrowOverwritesTheRow : Prop :=
  ∀ (s : State) (addr row : Nat) (value : Byte) (ok : Bool), s.Inv → s.bound = true → addr < s.params.chainLength → row ≤ 7 →
    s.answerAt 0 = some ok →
    ∃ t, exec (.setrow addr row value) s = .next t ∧ Wrote addr (0x01 + row) value ok s t ∧ t.bound = s.bound ∧
      t.frameByte addr row = some value ∧ ∀ d r, d ≠ addr ∨ r ≠ row → t.frameByte d r = s.frameByte d r

/-- R123: SETLED, answered either way; one bit of one row changes and the whole row is sent (decisions D1, D15; log 19, log 28).
The chips (R158, R159): log 11, log 23. -/
def Obligations.SetledChangesOneBitAndSendsTheRow : Prop :=
  ∀ (s : State) (addr x y : Nat) (b ok : Bool), s.Inv → s.bound = true → addr < s.params.chainLength → x ≤ 7 → y ≤ 7 →
    s.answerAt 0 = some ok →
    ∃ t old new, exec (.setled addr x y b) s = .next t ∧ s.frameByte addr x = some old ∧ t.frameByte addr x = some new ∧
      new.getLsbD (7 - y) = b ∧ (∀ k, k ≠ 7 - y → new.getLsbD k = old.getLsbD k) ∧
      Wrote addr (0x01 + x) new ok s t ∧ t.bound = s.bound ∧
      ∀ d r, d ≠ addr ∨ r ≠ x → t.frameByte d r = s.frameByte d r

/-- R121, R128: CLEAR with all its calls accepted (decisions D1, D23; log 19, log 28). The chips (R158): log 23. -/
def Obligations.ClearZeroesTheDevice : Prop :=
  ∀ (s : State) (addr : Nat), s.Inv → s.bound = true → addr < s.params.chainLength → (∀ k, k < 8 → s.answerAt k = some true) →
    ∃ t new, exec (.clear addr) s = .next t ∧ t.result = some .ok ∧ t.calls = s.calls ++ new ∧ new.length = 8 ∧
      (∀ k, k < 8 → ∃ c, new[k]? = some c ∧ c.answer = true ∧ IsTargetedWrite s.params.chainLength addr (0x01 + k) 0x00 c.buf) ∧
      (∀ r, r ≤ 7 → t.frameByte addr r = some 0x00 ∧ t.chipByte addr (0x01 + r) = some 0x00) ∧
      (∀ d r, d ≠ addr → t.frameByte d r = s.frameByte d r) ∧ (∀ d, d ≠ addr → t.chips[d]? = s.chips[d]?) ∧
      (∀ a, 0x08 < a → t.chipByte addr a = s.chipByte addr a) ∧ t.bound = s.bound ∧ t.params = s.params ∧ t.requests = s.requests

/-- R121, R146: CLEAR whose step `i` fails: rows `0..i` are zero, the later ones untouched, `i+1` calls made (decisions D1, D23; log 19, log 28).
The chips: digit registers 0..i-1 hold zero for certain, those after `i` what they held (R174), the other chips are as before (R159): log 11, log 23. -/
def Obligations.ClearStopsAtTheFirstFailure : Prop :=
  ∀ (s : State) (addr i : Nat), s.Inv → s.bound = true → addr < s.params.chainLength → i ≤ 7 →
    (∀ k, k < i → s.answerAt k = some true) → s.answerAt i = some false →
    ∃ t new, exec (.clear addr) s = .next t ∧ t.result = some .transportError ∧ t.calls = s.calls ++ new ∧ new.length = i + 1 ∧
      (∀ k, k ≤ i → ∃ c, new[k]? = some c ∧ c.answer = decide (k < i) ∧
        IsTargetedWrite s.params.chainLength addr (0x01 + k) 0x00 c.buf) ∧
      (∀ r, r ≤ i → t.frameByte addr r = some 0x00) ∧ (∀ r, i < r → t.frameByte addr r = s.frameByte addr r) ∧
      (∀ r, r < i → t.chipByte addr (0x01 + r) = some 0x00) ∧
      (∀ r, i < r → r ≤ 7 → t.chipByte addr (0x01 + r) = s.chipByte addr (0x01 + r)) ∧
      (∀ d r, d ≠ addr → t.frameByte d r = s.frameByte d r) ∧ (∀ d, d ≠ addr → t.chips[d]? = s.chips[d]?) ∧
      t.bound = s.bound ∧ t.params = s.params ∧ t.requests = s.requests

/-- The row SETCOL writes at step `k` (R127, decision D9); rows 7 down to 0 for the other value of the parameter are the model's choice (log 20). -/
def setcolRow (p : Params) (k : Nat) : Nat := if p.setcolAscending then k else 7 - k

/-- The bit of SETCOL's value for row `r` (R127, decision D8; log 20). -/
def setcolBit (p : Params) (value : Byte) (r : Nat) : Bool := if p.setcolMsbIsRow0 then value.getLsbD (7 - r) else value.getLsbD r

/-- R127, R128: SETCOL with all its calls accepted, for both values of both parameters (decisions D1, D8, D9, D15; log 19, log 20, log 28). The chips
(R158): log 23. -/
def Obligations.SetcolSetsOneColumn : Prop :=
  ∀ (s : State) (addr column : Nat) (value : Byte), s.Inv → s.bound = true → addr < s.params.chainLength → column ≤ 7 →
    (∀ k, k < 8 → s.answerAt k = some true) →
    ∃ t new, exec (.setcol addr column value) s = .next t ∧ t.result = some .ok ∧ t.calls = s.calls ++ new ∧ new.length = 8 ∧
      (∀ k, k < 8 → ∃ c v, new[k]? = some c ∧ c.answer = true ∧ t.frameByte addr (setcolRow s.params k) = some v ∧
        IsTargetedWrite s.params.chainLength addr (0x01 + setcolRow s.params k) v c.buf) ∧
      (∀ r, r ≤ 7 → ∃ old v, s.frameByte addr r = some old ∧ t.frameByte addr r = some v ∧ t.chipByte addr (0x01 + r) = some v ∧
        v.getLsbD (7 - column) = setcolBit s.params value r ∧ ∀ k, k ≠ 7 - column → v.getLsbD k = old.getLsbD k) ∧
      (∀ d r, d ≠ addr → t.frameByte d r = s.frameByte d r) ∧ (∀ d, d ≠ addr → t.chips[d]? = s.chips[d]?) ∧
      (∀ a, 0x08 < a → t.chipByte addr a = s.chipByte addr a) ∧ t.bound = s.bound ∧ t.params = s.params ∧ t.requests = s.requests

/-- R127, R146: SETCOL whose step `i` fails: the rows of steps `0..i` have their bit, the later ones are untouched, `i+1` calls made
(decisions D1, D8, D9, D15; log 19, log 20, log 28). The chips: the digit registers of the steps before `i` hold their new rows for certain, those of
the later steps what they held (R174), the other chips are as before (R159): log 11, log 23. -/
def Obligations.SetcolStopsAtTheFirstFailure : Prop :=
  ∀ (s : State) (addr column i : Nat) (value : Byte), s.Inv → s.bound = true → addr < s.params.chainLength → column ≤ 7 → i ≤ 7 →
    (∀ k, k < i → s.answerAt k = some true) → s.answerAt i = some false →
    ∃ t new, exec (.setcol addr column value) s = .next t ∧ t.result = some .transportError ∧ t.calls = s.calls ++ new ∧
      new.length = i + 1 ∧
      (∀ k, k ≤ i → ∃ c old v, new[k]? = some c ∧ c.answer = decide (k < i) ∧
        s.frameByte addr (setcolRow s.params k) = some old ∧ t.frameByte addr (setcolRow s.params k) = some v ∧
        v.getLsbD (7 - column) = setcolBit s.params value (setcolRow s.params k) ∧
        (∀ j, j ≠ 7 - column → v.getLsbD j = old.getLsbD j) ∧
        (k < i → t.chipByte addr (0x01 + setcolRow s.params k) = some v) ∧
        IsTargetedWrite s.params.chainLength addr (0x01 + setcolRow s.params k) v c.buf) ∧
      (∀ k, i < k → k ≤ 7 → t.frameByte addr (setcolRow s.params k) = s.frameByte addr (setcolRow s.params k) ∧
        t.chipByte addr (0x01 + setcolRow s.params k) = s.chipByte addr (0x01 + setcolRow s.params k)) ∧
      (∀ d r, d ≠ addr → t.frameByte d r = s.frameByte d r) ∧ (∀ d, d ≠ addr → t.chips[d]? = s.chips[d]?) ∧
      t.bound = s.bound ∧ t.params = s.params ∧ t.requests = s.requests

/-- R91: CLEAR is eight SETROWs, stopping at the first that does not return `Ok`: same transactions, frame, status, stops (rule derived by the
spec from R121, R125). -/
def Obligations.ClearBehavesAsEightSetrows : Prop :=
  ∀ (s : State) (addr : Nat),
    exec (.clear addr) s = runWhileOk ((List.range 8).map fun r => .setrow addr r 0x00) s

/-- R91: SETCOL is eight SETLEDs, with the spec's default bit and step order (rule derived by the spec from R123, R127; decisions D8, D9, log 20). -/
def Obligations.SetcolBehavesAsEightSetleds : Prop :=
  ∀ (s : State) (addr column : Nat) (value : Byte), s.params.setcolMsbIsRow0 = true → s.params.setcolAscending = true →
    exec (.setcol addr column value) s =
      runWhileOk ((List.range 8).map fun r => .setled addr r column (value.getLsbD (7 - r))) s

/-- R48, R124 (c), R179: a single-write operation issued twice sends the same transaction twice and leaves the frame of the first. -/
def Obligations.RepeatedOperationsSendTheSameTransaction : Prop :=
  ∀ (i : Instr) (s t u : State) (addr x y : Nat) (value : Byte) (b : Bool),
    i ∈ [.shutdown addr b, .intensity addr x, .disptest addr b, .setled addr x y b, .setrow addr x value] →
    exec i s = .next t → exec i t = .next u →
    u.frame = t.frame ∧ ∃ new new', t.calls = s.calls ++ new ∧ u.calls = t.calls ++ new' ∧ new'.map (·.buf) = new.map (·.buf)

/-- R124 (d): two SETLEDs on different LEDs of one device commute in their effect on the frame. -/
def Obligations.SetledsCommuteOnTheFrame : Prop :=
  ∀ (s t t' u u' : State) (addr x y x' y' : Nat) (b b' : Bool), x ≠ x' ∨ y ≠ y' →
    exec (.setled addr x y b) s = .next t → exec (.setled addr x' y' b') t = .next t' →
    exec (.setled addr x' y' b') s = .next u → exec (.setled addr x y b) u = .next u' → t'.frame = u'.frame

/-! ### The chips -/

/-- R32, R48, R175, R178: no rule of the block reads a chip: whatever the chips hold, every instruction ends the same way and leaves the
same state but for the chips. -/
def Obligations.ChipsAreNeverRead : Prop :=
  (∀ (i : Instr) (s : State) (chips : List ChipRegs), SameButChips (exec i s) (exec i { s with chips := chips })) ∧
  ∀ (s : State) (chips : List ChipRegs), SameButChips (step s) (step { s with chips := chips })

/-- The pairs with a register address that is meaningful for writes (R50, R51; decision D1, log 19). -/
def writingPairs : List (Nat × (Nat → Byte → Instr)) :=
  [(0x01, .digit0), (0x02, .digit1), (0x03, .digit2), (0x04, .digit3), (0x05, .digit4), (0x06, .digit5), (0x07, .digit6), (0x08, .digit7),
    (0x09, .decodeMode), (0x0A, .intensityReg), (0x0B, .scanLimit), (0x0C, .shutdownReg), (0x0F, .displayTestReg)]

/-- The model's own counter aside, nothing but the chips differs (log 7). -/
def OnlyChips (s t : State) : Prop := t = { s with chips := t.chips, draws := t.draws }

/-- R158, R160: a chip that latches DIGIT_0 to DIGIT_7, DECODE_MODE, INTENSITY_REG, SCAN_LIMIT, SHUTDOWN_REG or DISPLAY_TEST_REG holds the
value in that register; nothing else changes (the pair as an instruction: log 13). -/
def Obligations.LatchedPairsWriteTheirRegister : Prop :=
  ∀ (s : State) (slot reg : Nat) (value : Byte) (mk : Nat → Byte → Instr), (reg, mk) ∈ writingPairs → s.Inv →
    slot < s.params.chainLength →
    ∃ t, exec (mk slot value) s = .next t ∧ t.chipByte slot reg = some value ∧
      (∀ a, a ≠ reg → t.chipByte slot a = s.chipByte slot a) ∧ (∀ d, d ≠ slot → t.chips[d]? = s.chips[d]?) ∧ OnlyChips s t

/-- R158, R12: the chip ignores NOOP, whatever its value (the pair as an instruction: log 13). -/
def Obligations.NoopPairIsIgnored : Prop :=
  ∀ (s : State) (slot : Nat) (value : Byte), slot < s.params.chainLength →
    ∃ t, exec (.noop slot value) s = .next t ∧ t.chips = s.chips ∧ OnlyChips s t

/-- R85, U4: RESERVED_0D and RESERVED_0E run and leave everything but the chip of their slot alone (that chip's registers are then any value,
log 12). -/
def Obligations.ReservedPairsTouchOnlyTheirChip : Prop :=
  ∀ (s : State) (slot : Nat) (value : Byte) (i : Instr), i ∈ [.reserved0d slot value, .reserved0e slot value] →
    slot < s.params.chainLength →
    ∃ t, exec i s = .next t ∧ t.chips.length = s.chips.length ∧ (∀ d, d ≠ slot → t.chips[d]? = s.chips[d]?) ∧ OnlyChips s t

/-- R30, R71: a transaction has exactly `N` slots; a pair in another one is no access to anything (the model's stop, log 17). -/
def Obligations.PairsBeyondTheChainFault : Prop :=
  ∀ (i : Instr) (s : State) (slot : Nat), i.returnsStatus = false → i.device = some slot → s.params.chainLength ≤ slot →
    exec i s = .fault .noSuchSlot

/-- R158: what an accepted register write does to the chips is what its target does on latching the pair of its slot (the pair as an instruction: the
model's, log 13). For 0x0D and 0x0E, where the spec allows any value, it rests on both ways taking the same free value (log 12). -/
def Obligations.AcceptedWriteIsTheTargetsLatch : Prop :=
  ∀ (s t : State) (addr reg : Nat) (value : Byte) (i : Instr), s.Inv → addr < s.params.chainLength → reg ≤ 0x0F →
    s.answerAt 0 = some true → exec (.wrreg addr reg value) s = .next t →
    decode (.pair (BitVec.ofNat 8 addr) (BitVec.ofNat 8 reg ++ value)) = .ok i →
    ∃ u, exec i s = .next u ∧ u.chips = t.chips

/-- R161 (a), (b): a frame operation that returns `Ok` leaves the rows it wrote in sync (rule derived by the spec). -/
def Obligations.OkFrameOperationsBringTheirRowsIntoSync : Prop :=
  ∀ (i : Instr) (s t : State), s.Inv → i.isCommand = true → (∀ b, i ≠ .init b) → exec i s = .next t → t.result = some .ok →
    ∀ d r, i.mayWrite d r → r ≤ 7 → t.InSync d r

/-- R161 (c): a command other than INIT that returns `Ok` puts no row out of sync (rule derived by the spec; after a failure the row
written last is not known to be in sync, R161 (d)). -/
def Obligations.OkCommandsKeepTheMirror : Prop :=
  ∀ (i : Instr) (s t : State), s.Inv → i.isCommand = true → (∀ b, i ≠ .init b) → exec i s = .next t → t.result = some .ok →
    ∀ d r, r ≤ 7 → s.InSync d r → t.InSync d r

/-- R161, R173 step 3: one accepted CLEAR of each device establishes the mirror of the whole display, whatever the chips held (rules derived
by the spec). -/
def Obligations.ClearingEveryDeviceMirrorsTheDisplay : Prop :=
  ∀ s t : State, s.Inv → runWhileOk ((List.range s.params.chainLength).map .clear) s = .next t → t.result = some .ok → t.Mirrored

/-- R161 (c): whatever the status, a command changes neither the frame byte nor the digit register of a row that it neither updates nor writes, so such a
row stays in sync (rule derived by the spec; after a failure: log 11; chips change in no other way: log 23). -/
def Obligations.RowsACommandDoesNotWriteStayAsTheyWere : Prop :=
  ∀ (i : Instr) (s t : State), s.Inv → i.isCommand = true → exec i s = .next t → ∀ d r, r ≤ 7 → ¬ i.mayWrite d r →
    t.frameByte d r = s.frameByte d r ∧ t.chipByte d (0x01 + r) = s.chipByte d (0x01 + r) ∧ (s.InSync d r → t.InSync d r)

/-- R174: a doubtful row is resynchronised by `SETROW d, r, frame[d][r]` that is accepted: the row is in sync, the frame is as it was, every other
row is as it was (rule derived by the spec; log 23). -/
def Obligations.SetrowOfTheFrameByteResynchronisesItsRow : Prop :=
  ∀ (s : State) (d r : Nat) (v : Byte), s.Inv → s.bound = true → r ≤ 7 → s.frameByte d r = some v → s.answerAt 0 = some true →
    ∃ t, exec (.setrow d r v) s = .next t ∧ t.result = some .ok ∧ t.frame = s.frame ∧ t.InSync d r ∧
      ∀ d' r', d' ≠ d ∨ r' ≠ r → r' ≤ 7 → t.chipByte d' (0x01 + r') = s.chipByte d' (0x01 + r')

/-- R174: SETLED, SETROW, CLEAR and SETCOL give the same final frame when repeated: after any first run, failed or not, the same command again with the
status `Ok` leaves the frame that a first run with the status `Ok` would have left, and the rows it writes in sync (rule derived by the spec; log 23). -/
def Obligations.TheSameCommandAgainResynchronisesItsRows : Prop :=
  ∀ (s t u v : State) (addr x y : Nat) (value : Byte) (b : Bool) (i : Instr) (answers : List Reply), s.Inv →
    i ∈ [.setled addr x y b, .setrow addr x value, .clear addr, .setcol addr y value] →
    exec i s = .next t → exec i t = .next u → u.result = some .ok →
    exec i { s with replies := answers } = .next v → v.result = some .ok →
    u.frame = v.frame ∧ ∀ d r, i.mayWrite d r → r ≤ 7 → u.InSync d r
end

