-- ==== Sys2Proof/Laws/State.lean ====
section
/-! SUPPORT. One lemma per field per update of the state. -/

namespace Sys2Proof.Machine

variable (s : State) (st : Status) (d r : Nat) (v : Byte) (q : Request)

@[simp] theorem endCommand_params : (endCommand st s).params = s.params := rfl
@[simp] theorem endCommand_frame : (endCommand st s).frame = s.frame := rfl
@[simp] theorem endCommand_bound : (endCommand st s).bound = s.bound := rfl
@[simp] theorem endCommand_result : (endCommand st s).result = some st := rfl
@[simp] theorem endCommand_calls : (endCommand st s).calls = s.calls := rfl
@[simp] theorem endCommand_chips : (endCommand st s).chips = s.chips := rfl
@[simp] theorem endCommand_requests : (endCommand st s).requests = s.requests := rfl
@[simp] theorem endCommand_replies : (endCommand st s).replies = s.replies := rfl
@[simp] theorem endCommand_draws : (endCommand st s).draws = s.draws := rfl
@[simp] theorem endCommand_frameByte : (endCommand st s).frameByte d r = s.frameByte d r := rfl
@[simp] theorem endCommand_chipByte : (endCommand st s).chipByte d r = s.chipByte d r := rfl

@[simp] theorem setFrameByte_params : (s.setFrameByte d r v).params = s.params := rfl
@[simp] theorem setFrameByte_bound : (s.setFrameByte d r v).bound = s.bound := rfl
@[simp] theorem setFrameByte_result : (s.setFrameByte d r v).result = s.result := rfl
@[simp] theorem setFrameByte_calls : (s.setFrameByte d r v).calls = s.calls := rfl
@[simp] theorem setFrameByte_chips : (s.setFrameByte d r v).chips = s.chips := rfl
@[simp] theorem setFrameByte_requests : (s.setFrameByte d r v).requests = s.requests := rfl
@[simp] theorem setFrameByte_replies : (s.setFrameByte d r v).replies = s.replies := rfl
@[simp] theorem setFrameByte_draws : (s.setFrameByte d r v).draws = s.draws := rfl
@[simp] theorem setFrameByte_chipByte (d' a : Nat) : (s.setFrameByte d r v).chipByte d' a = s.chipByte d' a := rfl

@[simp] theorem present_params : (s.present q).params = s.params := rfl
@[simp] theorem present_frame : (s.present q).frame = s.frame := rfl
@[simp] theorem present_bound : (s.present q).bound = s.bound := rfl
@[simp] theorem present_result : (s.present q).result = s.result := rfl
@[simp] theorem present_calls : (s.present q).calls = s.calls := rfl
@[simp] theorem present_chips : (s.present q).chips = s.chips := rfl
@[simp] theorem present_requests : (s.present q).requests = q :: s.requests := rfl
@[simp] theorem present_replies : (s.present q).replies = s.replies := rfl
@[simp] theorem present_draws : (s.present q).draws = s.draws := rfl

@[simp] theorem noDevice_iff (addr : Nat) : s.noDevice addr = true ↔ s.params.chainLength ≤ addr := by
  simp [State.noDevice]

@[simp] theorem noDevice_endCommand (addr : Nat) : (endCommand st s).noDevice addr = s.noDevice addr := rfl

@[simp] theorem noDevice_setFrameByte (addr : Nat) : (s.setFrameByte d r v).noDevice addr = s.noDevice addr := rfl

end Sys2Proof.Machine
end

