-- ==== Sys2Proof/Laws/Chips.lean ====
section
/-! SUPPORT. The chips: read after write, and which chips an event leaves alone. -/

namespace Sys2Proof.Machine

variable {c : ChipRegs} {reg a draw d addr : Nat} {value : Byte} {ok : Bool} {buf : List Byte} {chips : List ChipRegs}

/-- The addresses that have a register (60_exceptions.md R157). -/
theorem read_isSome (h : 1 ≤ reg) (h' : reg ≤ 0x0F) : ∃ v, c.read reg = some v := by
  interval_cases reg <;> exact ⟨_, rfl⟩

/-- A digit register is read where its row stands. -/
theorem read_digit {r : Nat} (h : r ≤ 7) : c.read (0x01 + r) = c.digit[r]? := by
  unfold ChipRegs.read regDecodeMode regIntensity regScanLimit regShutdown regReserved0D regReserved0E regDisplayTest regDigit0
  repeat rw [if_neg (by omega)]
  rw [if_pos (by omega), Nat.add_sub_cancel_left]

/-- A digit register is written where its row stands. -/
theorem write_digit {r : Nat} (h : r ≤ 7) :
    c.write (0x01 + r) value = { c with digit := c.digit.setIfInBounds r value } := by
  unfold ChipRegs.write regDecodeMode regIntensity regScanLimit regShutdown regReserved0D regReserved0E regDisplayTest regDigit0
  repeat rw [if_neg (by omega)]
  rw [if_pos (by omega), Nat.add_sub_cancel_left]

/-- The addresses `0x01..0x08` are digit registers, `0x09..0x0F` are the named ones. -/
theorem register_cases (h : 1 ≤ reg) (h' : reg ≤ 0x0F) :
    (∃ r, r ≤ 7 ∧ reg = 0x01 + r) ∨ reg = 0x09 ∨ reg = 0x0A ∨ reg = 0x0B ∨ reg = 0x0C ∨ reg = 0x0D ∨ reg = 0x0E ∨ reg = 0x0F := by
  rcases Nat.lt_or_ge reg 9 with h9 | h9
  · exact .inl ⟨reg - 1, by omega, by omega⟩
  · omega

theorem read_write_same (h : 1 ≤ reg) (h' : reg ≤ 0x0F) : (c.write reg value).read reg = some value := by
  obtain ⟨r, hr, rfl⟩ | rfl | rfl | rfl | rfl | rfl | rfl | rfl := register_cases h h'
  · simp [write_digit hr, read_digit hr, Nat.lt_succ_of_le hr]
  all_goals rfl

/-- A write leaves every register of another address alone. -/
theorem read_write_ne (h' : reg ≤ 0x0F) (hne : a ≠ reg) : (c.write reg value).read a = c.read a := by
  rcases Nat.eq_zero_or_pos reg with rfl | h
  · rfl
  obtain ⟨r, hr, rfl⟩ | hreg := register_cases h h'
  · rw [write_digit hr]
    have hd : 1 ≤ a → (c.digit.setIfInBounds r value)[a - 1]? = c.digit[a - 1]? := fun ha => by
      rw [Vector.getElem?_setIfInBounds, if_neg (by omega)]
    simp only [ChipRegs.read, regDigit0]
    repeat' apply ite_congr rfl <;> intro _
    all_goals first | rfl | exact hd ‹_›
  · rcases hreg with rfl | rfl | rfl | rfl | rfl | rfl | rfl <;>
      simp [ChipRegs.read, ChipRegs.write, regDecodeMode, regIntensity, regScanLimit, regShutdown, regReserved0D, regReserved0E, regDisplayTest, hne] <;>
      rfl

@[simp] theorem latchPair_noop : latchPair draw d regNoop value c = c := rfl

@[simp] theorem latchPair_zero : latchPair draw d 0 value c = c := rfl

theorem latchPair_write (h0 : reg ≠ 0x00) (hD : reg ≠ 0x0D) (hE : reg ≠ 0x0E) :
    latchPair draw d reg value c = c.write reg value := by
  simp [latchPair, regNoop, regReserved0D, regReserved0E, h0, hD, hE]

/-- A digit register that a doubtful pair does not name is certain (70_reset_and_hazards.md R174). -/
theorem read_doubtPair_row {r : Nat} (hreg : reg ≤ 0x0F) (hD : reg ≠ 0x0D) (hE : reg ≠ 0x0E) (hr : r ≤ 7) (hne : 0x01 + r ≠ reg) :
    (doubtPair draw d reg c).read (0x01 + r) = c.read (0x01 + r) := by
  rw [doubtPair, if_neg (by simp [regReserved0D, regReserved0E, hD, hE]), read_write_ne hreg hne, read_digit hr, read_digit hr]

@[simp] theorem chipsAfter_length : (chipsAfter ok draw addr buf chips).length = chips.length := by
  cases ok <;> simp [chipsAfter]

end Sys2Proof.Machine
end

