-- ==== Sys2Proof/Laws/Decode.lean ====
section
/-! SUPPORT. The decoder's fields, as numbers: what each field of a word of known parts is, and which row a word selects. -/

namespace Sys2Proof

/-- The operand range as a number (R78). -/
@[simp] theorem isOperand_iff {n : Nat} : isOperand n = true ↔ n < 256 := decide_eq_true_iff

/-- The chain range as numbers (00_scope.md R7). -/
@[simp] theorem params_wellFormed_iff {p : Params} : p.wellFormed = true ↔ 1 ≤ p.chainLength ∧ p.chainLength ≤ 255 := by
  rw [Params.wellFormed, Bool.and_eq_true, decide_eq_true_iff, decide_eq_true_iff]
  exact Iff.rfl

/-! ### The named widths and places as numbers (30_encoding.md R78, R70) -/

theorem fieldOp_eq (w : Word) : fieldOp w = w.toNat / 2 ^ 28 % 2 ^ 4 := by
  simp only [fieldOp, field, opAt, operandBits, Nat.reduceMul, Nat.reduceAdd, Nat.reduceSub]
theorem fieldRsv_eq (w : Word) : fieldRsv w = w.toNat / 2 ^ 25 % 2 ^ 3 := by
  simp only [fieldRsv, field, rsvAt, operandBits, Nat.reduceMul, Nat.reduceAdd, Nat.reduceSub]
theorem fieldS_eq (w : Word) : fieldS w = decide (w.toNat / 2 ^ 24 % 2 ^ 1 = 1) := by
  simp only [fieldS, field, sAt, operandBits, Nat.reduceMul, Nat.reduceAdd, Nat.reduceSub]
  rfl
theorem fieldAddr_eq (w : Word) : fieldAddr w = w.toNat / 2 ^ 16 % 2 ^ 8 := by
  simp only [fieldAddr, field, addrAt, operandBits, Nat.reduceMul, Nat.reduceAdd, Nat.reduceSub]
theorem fieldA_eq (w : Word) : fieldA w = w.toNat / 2 ^ 8 % 2 ^ 8 := by
  simp only [fieldA, field, aAt, operandBits, Nat.reduceMul, Nat.reduceAdd, Nat.reduceSub]
theorem fieldB_eq (w : Word) : fieldB w = w.toNat / 2 ^ 0 % 2 ^ 8 := by
  simp only [fieldB, field, bAt, operandBits, Nat.reduceAdd, Nat.reduceSub]

theorem commandWord_toNat {op addr a b : Nat} {s : Bool} :
    (commandWord op s addr a b).toNat = (op * 2 ^ 28 + s.toNat * 2 ^ 24 + addr * 2 ^ 16 + a * 2 ^ 8 + b * 2 ^ 0) % 2 ^ 32 := by
  simp only [commandWord, BitVec.toNat_ofNat, opAt, sAt, addrAt, aAt, bAt, commandBits, operandBits, Nat.reduceMul, Nat.reduceAdd]

/-- The ranges of the two kinds of bit values, as numbers. -/
theorem byte_lt (v : Byte) : v.toNat < 256 := v.isLt
theorem operand_lt (v : Operand) : v.toNat < 256 := v.isLt

/-- A number in the range of an operand is kept by its bits (R78). -/
theorem operand_ofNat_toNat {n : Nat} (h : n < 256) : (BitVec.ofNat operandBits n).toNat = n := by
  rw [BitVec.toNat_ofNat]
  exact Nat.mod_eq_of_lt h

/-- The number of a call's register and value operands (R101). -/
theorem registerValue_toNat {reg : Nat} {v : Operand} (h : reg < 256) :
    (BitVec.ofNat (2 * operandBits) (reg * 2 ^ operandBits + v.toNat)).toNat = reg * 256 + v.toNat := by
  have := operand_lt v
  rw [BitVec.toNat_ofNat]
  exact Nat.mod_eq_of_lt (show reg * 256 + v.toNat < 65536 by omega)

/-- At the spec's widths an operand is a byte, put unchanged where it goes (R125, R101). -/
@[simp] theorem valueByte_eq (value : Operand) : Machine.valueByte value = value := BitVec.setWidth_eq value

/-- A level in its range is its byte (41_device_control.md R111). -/
theorem levelByte_toNat {level : Nat} (h : level < 256) : (Machine.levelByte level).toNat = level := by
  rw [Machine.levelByte, BitVec.toNat_ofNat]
  exact Nat.mod_eq_of_lt h

theorem pairRegister_eq (p : Pair) : pairRegister p = p.toNat / 2 ^ 8 := rfl

theorem pairWord_toNat {reg : Nat} {v : Byte} : (pairWord reg v).toNat = (reg * 2 ^ 8 + v.toNat) % 2 ^ 16 := by
  simp only [pairWord, BitVec.toNat_ofNat, byteBits, Nat.reduceMul]

/-- The two halves of the primitive's operands (40_init_and_register_write.md R101). -/
theorem decodePrimitive_eq {addr : Nat} {p : RegisterValue} :
    decodePrimitive addr p = .wrreg addr (p.toNat / 2 ^ 8) (BitVec.ofNat 8 (p.toNat % 2 ^ 8)) := rfl

/-- The fields of a word whose number is put together as 30_encoding.md R78 says. -/
theorem fields_of_parts {w : Word} {op rsv s addr a b : Nat} (hr : rsv < 8) (hs : s < 2) (ha : addr < 256) (haa : a < 256)
    (hb : b < 256) (h : w.toNat = op * 2 ^ 28 + rsv * 2 ^ 25 + s * 2 ^ 24 + addr * 2 ^ 16 + a * 2 ^ 8 + b) :
    fieldOp w = op ∧ fieldRsv w = rsv ∧ fieldS w = decide (s = 1) ∧ fieldAddr w = addr ∧ fieldA w = a ∧ fieldB w = b := by
  have hw : w.toNat < 2 ^ 32 := w.isLt
  rw [fieldOp_eq, fieldRsv_eq, fieldS_eq, fieldAddr_eq, fieldA_eq, fieldB_eq, h]
  refine ⟨by omega, by omega, ?_, by omega, by omega, by omega⟩
  congr 1
  rw [eq_iff_iff]
  omega

/-- A word without reserved bits selects the row of its opcode (R80). -/
theorem decodeCommand_row {w : Word} {row : CommandRow} (hr : fieldRsv w = 0)
    (h : commandTable.find? (fun row => row.op == fieldOp w) = some row) : decodeCommand w = .ok (row.read w) := by
  simp [decodeCommand, hr, h]

/-- No row has an opcode above 7 (R83). -/
theorem commandTable_reserved {op : Nat} (h : 8 ≤ op) : commandTable.find? (fun row => row.op == op) = none := by
  simp [commandTable, opInit, opShutdown, opIntensity, opDisptest, opClear, opSetled, opSetrow, opSetcol]
  omega

/-- The numbers of R51's rows are the sixteen addresses `0x00..0x0F`. -/
theorem pairTable_registers : pairTable.map (·.register) = List.range 16 := by decide

/-- No row has a register byte above 0x0F. -/
theorem pairTable_reserved {reg : Nat} (h : 0x0F < reg) : pairTable.find? (fun row => row.register == reg) = none := by
  rw [List.find?_eq_none]
  intro row hrow
  have : row.register ∈ pairTable.map (·.register) := List.mem_map_of_mem hrow
  rw [pairTable_registers, List.mem_range] at this
  simp
  omega

/-- No two rows of either table select the same word. -/
theorem commandTable_pairwise : commandTable.Pairwise fun p q => p.op ≠ q.op := by decide

theorem pairTable_pairwise : pairTable.Pairwise fun p q => p.register ≠ q.register := by decide

@[simp] theorem pairRegister_pairWord {reg : Nat} {v : Byte} (h : reg < 256) : pairRegister (pairWord reg v) = reg := by
  have : v.toNat < 2 ^ 8 := v.isLt
  rw [pairRegister_eq, pairWord_toNat]
  omega

@[simp] theorem pairValue_pairWord {reg : Nat} {v : Byte} : pairValue (pairWord reg v) = v := by
  have : v.toNat < 2 ^ 8 := v.isLt
  apply BitVec.eq_of_toNat_eq
  show (pairWord reg v).toNat % 2 ^ 8 % 2 ^ 8 = v.toNat
  rw [pairWord_toNat]
  omega

end Sys2Proof
end

