-- ==== Sys2Proof/Laws/Frame.lean ====
section
/-! SUPPORT. The frame: read after write, and the shape a write keeps. -/

namespace Sys2Proof.Machine

variable {s : State} {d r d' r' : Nat} {v : Byte}

/-- A frame byte exists exactly where the frame has a device and the device a row. -/
theorem frameByte_isSome_iff : (∃ v, s.frameByte d r = some v) ↔ d < s.frame.length ∧ r < 8 := by
  unfold State.frameByte
  rcases lt_or_ge d s.frame.length with h | h
  · simp [h, Vector.getElem?_eq_some_iff]
  · simp [Nat.not_lt.mpr h]

theorem frameByte_exists (hd : d < s.frame.length) (hr : r < 8) : ∃ v, s.frameByte d r = some v :=
  frameByte_isSome_iff.mpr ⟨hd, hr⟩

theorem frameByte_setFrameByte_same {old : Byte} (h : s.frameByte d r = some old) :
    (s.setFrameByte d r v).frameByte d r = some v := by
  obtain ⟨hd, hr⟩ := frameByte_isSome_iff.mp ⟨old, h⟩
  simp [State.frameByte, State.setFrameByte, List.getElem?_eq_getElem hd, hr]

theorem frameByte_setFrameByte_ne (h : d' ≠ d ∨ r' ≠ r) :
    (s.setFrameByte d r v).frameByte d' r' = s.frameByte d' r' := by
  by_cases hd : d' = d
  · subst hd
    have hr : r ≠ r' := by rcases h with h | h <;> [exact absurd rfl h; exact fun e => h e.symm]
    simp only [State.frameByte, State.setFrameByte, List.getElem?_modify_eq]
    cases s.frame[d']? with
    | none => rfl
    | some rows => simp [hr]
  · simp [State.frameByte, State.setFrameByte, Ne.symm hd]

@[simp] theorem setFrameByte_frame_length : (s.setFrameByte d r v).frame.length = s.frame.length := by
  simp [State.setFrameByte]

/-- Reading the frame needs nothing of the state but the frame. -/
theorem frameByte_congr {t : State} (h : t.frame = s.frame) : t.frameByte d r = s.frameByte d r := by
  simp [State.frameByte, h]

theorem zeroFrame_length (n : Nat) : (zeroFrame n).length = n := by simp [zeroFrame]

end Sys2Proof.Machine
end

