-- ==== Sys2Proof/Laws/Transaction.lean ====
section
/-! SUPPORT. The outbound transaction: its layout, that the layout determines it, and what the chips make of it. -/

namespace Sys2Proof.Machine

variable {n addr reg d draw : Nat} {value : Byte} {buf : List Byte} {chips : List ChipRegs}

@[simp] theorem transaction_length : (transaction n addr reg value).length = 2 * n := by
  simp [transaction]

/-- 40_init_and_register_write.md R103 (a) to (c), of the buffer the primitive builds. -/
theorem transaction_isTargetedWrite (h : addr < n) :
    IsTargetedWrite n addr reg value (transaction n addr reg value) where
  length := transaction_length
  register := by
    have : 2 * addr < 2 * n := by omega
    simp [transaction, slotOffset, registerByte, this]
  value := by
    have : 2 * addr + 1 < 2 * n := by omega
    simp [transaction, slotOffset, this]
  padding d hd hne := by
    have h0 : 2 * d < 2 * n := by omega
    have h1 : 2 * d + 1 < 2 * n := by omega
    constructor
    · rw [transaction, List.getElem?_set_ne (by simp [slotOffset]; omega), List.getElem?_set_ne (by simp [slotOffset]; omega)]
      simp [h0]
    · rw [transaction, List.getElem?_set_ne (by simp [slotOffset]; omega), List.getElem?_set_ne (by simp [slotOffset]; omega)]
      simp [h1]

/-- A targeted write is determined by its target and pair. -/
theorem IsTargetedWrite.unique {buf' : List Byte} (h : IsTargetedWrite n addr reg value buf)
    (h' : IsTargetedWrite n addr reg value buf') : buf = buf' := by
  apply List.ext_getElem?
  intro i
  rcases Nat.lt_or_ge i (2 * n) with hi | hi
  · obtain ⟨d, rfl | rfl⟩ : ∃ d, i = 2 * d ∨ i = 2 * d + 1 := ⟨i / 2, by omega⟩
    · by_cases hd : d = addr
      · rw [hd, h.register, h'.register]
      · rw [(h.padding d (by omega) hd).1, (h'.padding d (by omega) hd).1]
    · by_cases hd : d = addr
      · rw [hd, h.value, h'.value]
      · rw [(h.padding d (by omega) hd).2, (h'.padding d (by omega) hd).2]
  · rw [List.getElem?_eq_none (h.length ▸ hi), List.getElem?_eq_none (h'.length ▸ hi)]

/-- No-op isolation at the chips: a device that is not the target latches a no-op (20_memory.md R45, 60_exceptions.md R158). -/
theorem latchSlot_other {c : ChipRegs} (hd : d ≠ addr) :
    latchSlot draw (transaction n addr reg value) d c = c := by
  rcases Nat.lt_or_ge d n with h | h
  · have h0 : (transaction n addr reg value)[2 * d]? = some 0 := by
      rw [transaction, List.getElem?_set_ne (by simp [slotOffset]; omega), List.getElem?_set_ne (by simp [slotOffset]; omega)]
      simp [show 2 * d < 2 * n by omega]
    simp only [latchSlot, slotOffset, h0]
    split
    · rename_i hreg _
      cases hreg
      rfl
    · rfl
  · have h0 : (transaction n addr reg value)[2 * d]? = none := by
      rw [List.getElem?_eq_none]
      simp
      omega
    simp [latchSlot, slotOffset, h0]

/-- The target latches the pair of the transaction. -/
theorem latchSlot_target {c : ChipRegs} (h : addr < n) (hreg : reg ≤ 0x0F) :
    latchSlot draw (transaction n addr reg value) addr c = latchPair draw addr reg value c := by
  have w := transaction_isTargetedWrite (reg := reg) (value := value) h
  simp only [latchSlot, slotOffset, w.register, w.value]
  congr 1
  rw [BitVec.toNat_ofNat]
  exact Nat.mod_eq_of_lt (show reg < 256 by omega)

/-- After a failure the target is in doubt about the pair of the transaction. -/
theorem doubtSlot_target {c : ChipRegs} (h : addr < n) (hreg : reg ≤ 0x0F) :
    doubtSlot draw (transaction n addr reg value) addr c = doubtPair draw addr reg c := by
  have w := transaction_isTargetedWrite (reg := reg) (value := value) h
  simp only [doubtSlot, slotOffset, w.register]
  congr 1
  rw [BitVec.toNat_ofNat]
  exact Nat.mod_eq_of_lt (show reg < 256 by omega)

/-- Only the target's chip is changed, whatever the answer. -/
theorem chipsAfter_other {ok : Bool} (hd : d ≠ addr) :
    (chipsAfter ok draw addr (transaction n addr reg value) chips)[d]? = chips[d]? := by
  cases ok
  · simp [chipsAfter, Ne.symm hd]
  · simp only [chipsAfter, ↓reduceIte, List.getElem?_mapIdx]
    cases chips[d]? with
    | none => rfl
    | some c => simp [latchSlot_other hd]

/-- The target's chip after an accepted transaction. -/
theorem chipsAfter_target_ok (h : addr < n) (hreg : reg ≤ 0x0F) :
    (chipsAfter true draw addr (transaction n addr reg value) chips)[addr]? = chips[addr]?.map (latchPair draw addr reg value) := by
  simp only [chipsAfter, ↓reduceIte, List.getElem?_mapIdx]
  cases chips[addr]? with
  | none => rfl
  | some c => simp [latchSlot_target h hreg]

/-- The target's chip after a failed transaction. -/
theorem chipsAfter_target_failed (h : addr < n) (hreg : reg ≤ 0x0F) :
    (chipsAfter false draw addr (transaction n addr reg value) chips)[addr]? = chips[addr]?.map (doubtPair draw addr reg) := by
  simp only [chipsAfter, Bool.false_eq_true, ↓reduceIte, List.getElem?_modify_eq]
  cases chips[addr]? with
  | none => rfl
  | some c => simp [doubtSlot_target h hreg]

end Sys2Proof.Machine
end

