-- ==== Sys2Proof/Laws/Transport.lean ====
section
/-! SUPPORT. The transport and the register-write primitive: what each can do, said once. -/

namespace Sys2Proof.Machine

/-- The state after a transaction `buf` to device `addr` that was answered `ok`: everything a register write changes. -/
def State.sent (s : State) (addr : Nat) (buf : List Byte) (ok : Bool) : State :=
  { s with
    calls := s.calls ++ [⟨buf, ok⟩]
    replies := s.replies.tail
    draws := s.draws + 1
    chips := chipsAfter ok s.draws addr buf s.chips }

variable {s t : State} {addr reg : Nat} {value : Byte} {buf : List Byte} {ok : Bool} {st : Status}

section Sent
variable (s : State) (addr : Nat) (buf : List Byte) (ok : Bool)

@[simp] theorem sent_params : (s.sent addr buf ok).params = s.params := rfl
@[simp] theorem sent_frame : (s.sent addr buf ok).frame = s.frame := rfl
@[simp] theorem sent_bound : (s.sent addr buf ok).bound = s.bound := rfl
@[simp] theorem sent_result : (s.sent addr buf ok).result = s.result := rfl
@[simp] theorem sent_calls : (s.sent addr buf ok).calls = s.calls ++ [⟨buf, ok⟩] := rfl
@[simp] theorem sent_chips : (s.sent addr buf ok).chips = chipsAfter ok s.draws addr buf s.chips := rfl
@[simp] theorem sent_requests : (s.sent addr buf ok).requests = s.requests := rfl
@[simp] theorem sent_replies : (s.sent addr buf ok).replies = s.replies.tail := rfl
@[simp] theorem sent_draws : (s.sent addr buf ok).draws = s.draws + 1 := rfl
@[simp] theorem sent_frameByte (d r : Nat) : (s.sent addr buf ok).frameByte d r = s.frameByte d r := rfl

/-- A call takes one answer; the later ones stay in line. -/
@[simp] theorem sent_answerAt (k : Nat) : (s.sent addr buf ok).answerAt k = s.answerAt (k + 1) := by
  simp [State.answerAt, Nat.add_assoc, Nat.add_comm 1 k]

end Sent

@[simp] theorem endCommand_answerAt (k : Nat) : (endCommand st s).answerAt k = s.answerAt k := rfl

@[simp] theorem setFrameByte_answerAt (d r k : Nat) (v : Byte) : (s.setFrameByte d r v).answerAt k = s.answerAt k := rfl

/-- A transaction is answered as the transport will answer its next call. -/
theorem send_answered (h : s.answerAt 0 = some ok) : send addr buf s = .ok (ok, s.sent addr buf ok) := by
  obtain ⟨params, frame, bound, result, calls, chips, requests, replies, draws⟩ := s
  cases replies with
  | nil => simp [State.answerAt] at h; subst h; rfl
  | cons q rest => cases q <;> simp [State.answerAt] at h <;> subst h <;> rfl

/-- A transaction that is never answered. -/
theorem send_silent (h : s.answerAt 0 = none) : send addr buf s = .error .transportSilent := by
  obtain ⟨params, frame, bound, result, calls, chips, requests, replies, draws⟩ := s
  cases replies with
  | nil => simp [State.answerAt] at h
  | cons q rest => cases q <;> simp [State.answerAt] at h; rfl

/-- R101, the operands out of range. -/
theorem writeRegister_outOfBounds (h : s.params.chainLength ≤ addr ∨ 0x0F < reg) :
    writeRegister addr reg value s = .ok (.outOfBounds, s) := by
  have h' : (s.noDevice addr || decide (regLast < reg)) = true := by
    simp only [State.noDevice, Bool.or_eq_true, decide_eq_true_eq]
    exact h
  rw [writeRegister, if_pos h']

theorem writeRegister_inRange (ha : addr < s.params.chainLength) (hr : reg ≤ 0x0F) :
    writeRegister addr reg value s =
      match send addr (transaction s.params.chainLength addr reg value) s with
      | .ok (ok, s') => .ok (statusOfAnswer ok, s')
      | .error f => .error f := by
  have h' : ¬ (s.noDevice addr || decide (regLast < reg)) = true := by
    simp only [State.noDevice, Bool.or_eq_true, decide_eq_true_eq]
    exact not_or.mpr ⟨Nat.not_le.mpr ha, Nat.not_lt.mpr hr⟩
  exact if_neg h'

/-- R101, answered. -/
theorem writeRegister_answered (ha : addr < s.params.chainLength) (hr : reg ≤ 0x0F) (h : s.answerAt 0 = some ok) :
    writeRegister addr reg value s =
      .ok (statusOfAnswer ok, s.sent addr (transaction s.params.chainLength addr reg value) ok) := by
  rw [writeRegister_inRange ha hr, send_answered h]

/-- R101, never answered. -/
theorem writeRegister_silent (ha : addr < s.params.chainLength) (hr : reg ≤ 0x0F) (h : s.answerAt 0 = none) :
    writeRegister addr reg value s = .error .transportSilent := by
  rw [writeRegister_inRange ha hr, send_silent h]

/-- Everything the primitive can do when it returns. -/
theorem writeRegister_cases (h : writeRegister addr reg value s = .ok (st, t)) :
    ((s.params.chainLength ≤ addr ∨ 0x0F < reg) ∧ st = .outOfBounds ∧ t = s) ∨
    (addr < s.params.chainLength ∧ reg ≤ 0x0F ∧ ∃ ok, s.answerAt 0 = some ok ∧ st = statusOfAnswer ok ∧
      t = s.sent addr (transaction s.params.chainLength addr reg value) ok) := by
  by_cases hr : s.params.chainLength ≤ addr ∨ 0x0F < reg
  · rw [writeRegister_outOfBounds hr] at h
    cases h
    exact .inl ⟨hr, rfl, rfl⟩
  · have ha : addr < s.params.chainLength := by omega
    have hr' : reg ≤ 0x0F := by omega
    cases hans : s.answerAt 0 with
    | none => rw [writeRegister_silent ha hr' hans] at h; cases h
    | some ok =>
      rw [writeRegister_answered ha hr' hans] at h
      cases h
      exact .inr ⟨ha, hr', ok, rfl, rfl, rfl⟩

/-- A register write that was made, as the claims word it. -/
theorem sent_wrote (ha : addr < s.params.chainLength) (hc : addr < s.chips.length) (hr : reg ≤ 0x0F) :
    Wrote addr reg value ok s
      (endCommand (statusOfAnswer ok) (s.sent addr (transaction s.params.chainLength addr reg value) ok)) where
  params := rfl
  requests := rfl
  replies := rfl
  status := rfl
  call := ⟨_, transaction_isTargetedWrite ha, rfl⟩
  otherChips d hd := by simp [chipsAfter_other hd]
  written hok h0 hD hE := by
    subst hok
    simp [State.chipByte, chipsAfter_target_ok ha hr, List.getElem?_eq_getElem hc, latchPair_write h0 hD hE,
      read_write_same (Nat.pos_of_ne_zero h0) hr]
  kept hok hD hE a h := by
    subst hok
    simp only [State.chipByte, endCommand_chips, sent_chips, chipsAfter_target_ok ha hr, List.getElem?_eq_getElem hc, Option.map_some]
    by_cases h0 : reg = 0x00
    · simp [h0]
    · rw [latchPair_write h0 hD hE]
      exact read_write_ne hr (by tauto)
  certain hok hD hE r h7 hne := by
    subst hok
    simp only [State.chipByte, endCommand_chips, sent_chips, chipsAfter_target_failed ha hr, List.getElem?_eq_getElem hc, Option.map_some]
    exact read_doubtPair_row hr hD hE h7 hne

/-- Every status but `Ok` ends a composite. -/
@[simp] theorem isOk_iff : st.isOk = true ↔ st = .ok := by cases st <;> simp [Status.isOk]

@[simp] theorem statusOfAnswer_true : statusOfAnswer true = .ok := rfl

@[simp] theorem statusOfAnswer_false : statusOfAnswer false = .transportError := rfl

end Sys2Proof.Machine
end

