-- ==== Sys2Proof/Laws/Rows.lean ====
section
/-! SUPPORT. The write-through of rows: what one row's step and a whole composite can do. -/

namespace Sys2Proof.Machine

/-- The state after one row was updated to `v` and written through with the answer `ok` (42_frame_operations.md R120). -/
def State.wroteRow (s : State) (addr r : Nat) (v : Byte) (ok : Bool) : State :=
  (s.setFrameByte addr r v).sent addr (transaction s.params.chainLength addr (digitRegister r) v) ok

/-- What a composite comes to: every row written through with success, or a first row whose write failed. -/
inductive RowsWritten (addr : Nat) (f : Nat → Byte → Byte) : List Nat → State → Status → State → Prop where
  | done (s : State) : RowsWritten addr f [] s .ok s
  | failed {s : State} {r : Nat} {rest : List Nat} {old : Byte} (hf : s.frameByte addr r = some old)
      (ha : s.answerAt 0 = some false) : RowsWritten addr f (r :: rest) s .transportError (s.wroteRow addr r (f r old) false)
  | more {s t : State} {st : Status} {r : Nat} {rest : List Nat} {old : Byte} (hf : s.frameByte addr r = some old)
      (ha : s.answerAt 0 = some true) (h : RowsWritten addr f rest (s.wroteRow addr r (f r old) true) st t) :
      RowsWritten addr f (r :: rest) s st t

variable {s t : State} {addr r d r' : Nat} {v old : Byte} {ok : Bool} {st : Status} {f : Nat → Byte → Byte} {rows : List Nat}

section WroteRow
variable (s : State) (addr r : Nat) (v : Byte) (ok : Bool)

@[simp] theorem wroteRow_params : (s.wroteRow addr r v ok).params = s.params := rfl
@[simp] theorem wroteRow_frame_length : (s.wroteRow addr r v ok).frame.length = s.frame.length := setFrameByte_frame_length
@[simp] theorem wroteRow_bound : (s.wroteRow addr r v ok).bound = s.bound := rfl
@[simp] theorem wroteRow_result : (s.wroteRow addr r v ok).result = s.result := rfl
@[simp] theorem wroteRow_calls : (s.wroteRow addr r v ok).calls =
    s.calls ++ [⟨transaction s.params.chainLength addr (digitRegister r) v, ok⟩] := rfl
@[simp] theorem wroteRow_chips : (s.wroteRow addr r v ok).chips =
    chipsAfter ok s.draws addr (transaction s.params.chainLength addr (digitRegister r) v) s.chips := rfl
@[simp] theorem wroteRow_requests : (s.wroteRow addr r v ok).requests = s.requests := rfl
@[simp] theorem wroteRow_replies : (s.wroteRow addr r v ok).replies = s.replies.tail := rfl
@[simp] theorem wroteRow_draws : (s.wroteRow addr r v ok).draws = s.draws + 1 := rfl
@[simp] theorem wroteRow_answerAt (k : Nat) : (s.wroteRow addr r v ok).answerAt k = s.answerAt (k + 1) := by
  simp [State.wroteRow]

end WroteRow

theorem wroteRow_frameByte_same (h : s.frameByte addr r = some old) :
    (s.wroteRow addr r v ok).frameByte addr r = some v := frameByte_setFrameByte_same h

theorem wroteRow_frameByte_ne (h : d ≠ addr ∨ r' ≠ r) :
    (s.wroteRow addr r v ok).frameByte d r' = s.frameByte d r' := frameByte_setFrameByte_ne h

/-- One row's step leaves every other digit register alone, whatever the answer (60_exceptions.md R161 (c), 70_reset_and_hazards.md R174). -/
theorem wroteRow_chipByte_ne (ha : addr < s.params.chainLength) (hr : r ≤ 7) (hr' : r' ≤ 7) (h : d ≠ addr ∨ r' ≠ r) :
    (s.wroteRow addr r v ok).chipByte d (0x01 + r') = s.chipByte d (0x01 + r') := by
  simp only [State.chipByte, wroteRow_chips]
  by_cases hd : d = addr
  · subst hd
    have hne : 0x01 + r' ≠ digitRegister r := by simp only [digitRegister, regDigit0]; omega
    have hreg : digitRegister r ≤ 0x0F ∧ digitRegister r ≠ 0x00 ∧ digitRegister r ≠ 0x0D ∧ digitRegister r ≠ 0x0E := by
      simp only [digitRegister, regDigit0]; omega
    cases ok
    · rw [chipsAfter_target_failed ha hreg.1]
      cases s.chips[d]? with
      | none => rfl
      | some c => exact read_doubtPair_row hreg.1 hreg.2.2.1 hreg.2.2.2 hr' hne
    · rw [chipsAfter_target_ok ha hreg.1]
      cases s.chips[d]? with
      | none => rfl
      | some c =>
        simp only [Option.map_some]
        rw [latchPair_write hreg.2.1 hreg.2.2.1 hreg.2.2.2]
        exact read_write_ne hreg.1 hne
  · rw [chipsAfter_other hd]

/-- One row, answered. -/
theorem writeThrough_answered {g : Byte → Byte} (ha : addr < s.params.chainLength) (hr : r ≤ 7) (hf : s.frameByte addr r = some old)
    (h : s.answerAt 0 = some ok) :
    writeThrough addr r g s = .ok (statusOfAnswer ok, s.wroteRow addr r (g old) ok) := by
  simp only [writeThrough, updateRow, hf]
  exact writeRegister_answered (s := s.setFrameByte addr r (g old)) ha (by simp [digitRegister, regDigit0]; omega) h

/-- One row, never answered. -/
theorem writeThrough_silent {g : Byte → Byte} (ha : addr < s.params.chainLength) (hr : r ≤ 7) (hf : s.frameByte addr r = some old)
    (h : s.answerAt 0 = none) : writeThrough addr r g s = .error .transportSilent := by
  simp only [writeThrough, updateRow, hf]
  exact writeRegister_silent (s := s.setFrameByte addr r (g old)) ha (by simp [digitRegister, regDigit0]; omega) h

/-- Everything one row's step can do when it returns. -/
theorem writeThrough_cases {g : Byte → Byte} (ha : addr < s.params.chainLength) (hr : r ≤ 7)
    (h : writeThrough addr r g s = .ok (st, t)) :
    ∃ old ok, s.frameByte addr r = some old ∧ s.answerAt 0 = some ok ∧ st = statusOfAnswer ok ∧ t = s.wroteRow addr r (g old) ok := by
  cases hf : s.frameByte addr r with
  | none => simp [writeThrough, updateRow, hf] at h
  | some old =>
    cases hans : s.answerAt 0 with
    | none => rw [writeThrough_silent ha hr hf hans] at h; cases h
    | some ok =>
      rw [writeThrough_answered ha hr hf hans] at h
      cases h
      exact ⟨old, ok, rfl, rfl, rfl, rfl⟩

/-- Everything a composite can do when it returns. -/
theorem writeRows_cases (ha : addr < s.params.chainLength) (hr : ∀ r ∈ rows, r ≤ 7)
    (h : writeRows addr f rows s = .ok (st, t)) : RowsWritten addr f rows s st t := by
  induction rows generalizing s with
  | nil => cases h; exact .done _
  | cons r rest ih =>
    simp only [writeRows] at h
    split at h
    · rename_i st' s' hw
      obtain ⟨old, ok, hf, hans, rfl, rfl⟩ := writeThrough_cases ha (hr r (by simp)) hw
      cases ok
      · simp at h
        obtain ⟨rfl, rfl⟩ := h
        exact .failed hf hans
      · simp at h
        exact .more hf hans (ih (s := s.wroteRow addr r (f r old) true) ha (fun q hq => hr q (by simp [hq])) h)
    · cases h

/-- A composite that can go so does. -/
theorem RowsWritten.run (h : RowsWritten addr f rows s st t) (ha : addr < s.params.chainLength) (hr : ∀ r ∈ rows, r ≤ 7) :
    writeRows addr f rows s = .ok (st, t) := by
  induction h with
  | done => rfl
  | failed hf hans => simp [writeRows, writeThrough_answered ha (hr _ (by simp)) hf hans]
  | more hf hans _ ih =>
    simp only [writeRows, writeThrough_answered ha (hr _ (by simp)) hf hans, statusOfAnswer_true, isOk_iff, ↓reduceIte]
    exact ih ha fun q hq => hr q (by simp [hq])

/-- One row's step is a composite of one row. -/
theorem writeThrough_eq_writeRows : writeThrough addr r (f r) s = writeRows addr f [r] s := by
  simp only [writeRows]
  cases writeThrough addr r (f r) s with
  | error e => rfl
  | ok p =>
    obtain ⟨st, s'⟩ := p
    cases st <;> rfl

theorem mem_rowsAscending {r : Nat} : r ∈ rowsAscending ↔ r ≤ 7 := by
  simp [rowsAscending]
  omega

theorem mem_setcolOrder {p : Params} {r : Nat} : r ∈ setcolOrder p ↔ r ≤ 7 := by
  unfold setcolOrder
  split <;> simp [mem_rowsAscending]

end Sys2Proof.Machine
end

