-- ==== Sys2Proof/Laws/Exec.lean ====
section
/-! SUPPORT. What an instruction can do, said once: `exec i s` answers a next state exactly when one of the cases of `Effect` holds. -/

namespace Sys2Proof

/-- The register write of an instruction that makes exactly one and no frame update: device, register, value. -/
def Instr.registerWrite : Instr → Option (Nat × Nat × Byte)
  | .shutdown addr b => some (addr, regShutdown, Machine.shutdownValue b)
  | .intensity addr level => some (addr, regIntensity, Machine.levelByte level)
  | .disptest addr b => some (addr, regDisplayTest, Machine.boolByte b)
  | .wrreg addr reg value => some (addr, reg, Machine.valueByte value)
  | _ => none

/-- The rows a frame operation writes: device, the new row as a function of row number and old row, and the rows in order. -/
def Instr.rowWrites (p : Params) : Instr → Option (Nat × (Nat → Byte → Byte) × List Nat)
  | .clear addr => some (addr, fun _ _ => 0x00, Machine.rowsAscending)
  | .setled addr x y b => some (addr, fun _ => Machine.setColumnBit y b, [x])
  | .setrow addr row value => some (addr, fun _ _ => Machine.valueByte value, [row])
  | .setcol addr column value => some (addr, fun r => Machine.setColumnBit column (Machine.columnBit p value r), Machine.setcolOrder p)
  | _ => none

/-- The pair a wire instruction has its chip latch: slot, register, value. -/
def Instr.latched : Instr → Option (Nat × Nat × Byte)
  | .noop slot value => some (slot, regNoop, value)
  | .digit0 slot value => some (slot, Machine.digitRegister 0, value)
  | .digit1 slot value => some (slot, Machine.digitRegister 1, value)
  | .digit2 slot value => some (slot, Machine.digitRegister 2, value)
  | .digit3 slot value => some (slot, Machine.digitRegister 3, value)
  | .digit4 slot value => some (slot, Machine.digitRegister 4, value)
  | .digit5 slot value => some (slot, Machine.digitRegister 5, value)
  | .digit6 slot value => some (slot, Machine.digitRegister 6, value)
  | .digit7 slot value => some (slot, Machine.digitRegister 7, value)
  | .decodeMode slot value => some (slot, regDecodeMode, value)
  | .intensityReg slot value => some (slot, regIntensity, value)
  | .scanLimit slot value => some (slot, regScanLimit, value)
  | .shutdownReg slot value => some (slot, regShutdown, value)
  | .reserved0d slot value => some (slot, regReserved0D, value)
  | .reserved0e slot value => some (slot, regReserved0E, value)
  | .displayTestReg slot value => some (slot, regDisplayTest, value)
  | _ => none

end Sys2Proof

namespace Sys2Proof.Machine

/-- What the chip in slot `slot` latching a pair leaves. -/
def State.latchedPair (s : State) (slot reg : Nat) (value : Byte) : State :=
  { s with chips := s.chips.modify slot (latchPair s.draws slot reg value), draws := s.draws + 1 }

/-- The states an instruction can leave. -/
inductive Effect (i : Instr) (s : State) : State → Prop where
  | initialised (h : i = .init true) :
      Effect i s (endCommand .ok { s with bound := true, frame := zeroFrame s.params.chainLength })
  | noTransport (h : i = .init false) : Effect i s (endCommand .invalidArgument s)
  | outOfBounds (hb : i.isCommand = true → s.bound = true) (h : i.outOfRange s.params.chainLength) :
      Effect i s (endCommand .outOfBounds s)
  | wrote {addr reg : Nat} {value : Byte} {ok : Bool} (hb : i.isCommand = true → s.bound = true)
      (hin : ¬ i.outOfRange s.params.chainLength) (h : i.registerWrite = some (addr, reg, value))
      (ha : addr < s.params.chainLength) (hr : reg ≤ 0x0F) (hans : s.answerAt 0 = some ok) :
      Effect i s (endCommand (statusOfAnswer ok) (s.sent addr (transaction s.params.chainLength addr reg value) ok))
  | rows {addr : Nat} {f : Nat → Byte → Byte} {rows : List Nat} {st : Status} {t : State} (hb : s.bound = true)
      (hin : ¬ i.outOfRange s.params.chainLength) (h : i.rowWrites s.params = some (addr, f, rows))
      (ha : addr < s.params.chainLength) (hr : ∀ r ∈ rows, r ≤ 7) (hw : RowsWritten addr f rows s st t) :
      Effect i s (endCommand st t)
  | latched {slot reg : Nat} {value : Byte} (h : i.latched = some (slot, reg, value)) (hs : slot < s.params.chainLength)
      (hr : reg ≤ 0x0F) : Effect i s (s.latchedPair slot reg value)

variable {i : Instr} {s t : State} {f : Fault} {run : State → Call}

theorem whenBound_next (h : whenBound s run = .next t) : s.bound = true ∧ ∃ st u, run s = .ok (st, u) ∧ t = endCommand st u := by
  unfold whenBound at h
  split at h
  · rename_i hb
    refine ⟨hb, ?_⟩
    cases hr : run s with
    | error e => rw [hr] at h; cases h
    | ok p =>
      rw [hr] at h
      cases h
      exact ⟨p.1, p.2, rfl, rfl⟩
  · cases h

theorem whenBound_of_ok {st : Status} {u : State} (hb : s.bound = true) (h : run s = .ok (st, u)) :
    whenBound s run = .next (endCommand st u) := by
  simp [whenBound, hb, h, respond]

/-- An operation that is one register write. -/
theorem writeRegister_effect {addr reg : Nat} {value : Byte} {st : Status} {u : State} (hb : i.isCommand = true → s.bound = true)
    (hi : i.registerWrite = some (addr, reg, value)) (hout : i.outOfRange s.params.chainLength ↔ s.params.chainLength ≤ addr ∨ 0x0F < reg)
    (h : writeRegister addr reg value s = .ok (st, u)) : Effect i s (endCommand st u) := by
  rcases writeRegister_cases h with ⟨hr, rfl, rfl⟩ | ⟨ha, hr, ok, hans, rfl, rfl⟩
  · exact .outOfBounds hb (hout.mpr hr)
  · exact .wrote hb (fun c => by rcases hout.mp c with c | c <;> omega) hi ha hr hans

theorem latchAt_effect {slot reg : Nat} {value : Byte} (hi : i.latched = some (slot, reg, value)) (hr : reg ≤ 0x0F)
    (h : latchAt slot reg value s = .next t) : Effect i s t := by
  unfold latchAt at h
  split at h
  · cases h
  · rename_i hs
    cases h
    exact .latched hi (by simpa using hs) hr

theorem latchAt_next {slot reg : Nat} {value : Byte} (hs : slot < s.params.chainLength) :
    latchAt slot reg value s = .next (s.latchedPair slot reg value) := by
  rw [latchAt, if_neg (by simpa using hs)]
  rfl

/-- An operand check, as a proposition. -/
theorem noDevice_false {addr : Nat} : ¬ s.noDevice addr = true ↔ addr < s.params.chainLength := by simp

/-- Every case of a next state. -/
theorem exec_effect (h : exec i s = .next t) : Effect i s t := by
  cases i with
  | init b =>
    cases b <;> cases h
    · exact .noTransport rfl
    · exact .initialised rfl
  | shutdown addr b =>
    obtain ⟨hb, st, u, hu, rfl⟩ := whenBound_next h
    exact writeRegister_effect (fun _ => hb) rfl (by simp [Instr.outOfRange, regShutdown]) hu
  | intensity addr level =>
    simp only [exec, execIntensity] at h
    obtain ⟨hb, st, u, hu, rfl⟩ := whenBound_next h
    split at hu
    · rename_i hl
      cases hu
      exact .outOfBounds (fun _ => hb) (.inr hl)
    · rename_i hl
      exact writeRegister_effect (fun _ => hb) rfl (by
        have : ¬ 15 < level := hl
        simp [Instr.outOfRange, regIntensity, this]) hu
  | disptest addr b =>
    obtain ⟨hb, st, u, hu, rfl⟩ := whenBound_next h
    exact writeRegister_effect (fun _ => hb) rfl (by simp [Instr.outOfRange, regDisplayTest]) hu
  | clear addr =>
    simp only [exec, execClear] at h
    obtain ⟨hb, st, u, hu, rfl⟩ := whenBound_next h
    split at hu
    · rename_i hc
      cases hu
      exact .outOfBounds (fun _ => hb) ((noDevice_iff s addr).mp hc)
    · rename_i hc
      have ha := noDevice_false.mp hc
      have hr : ∀ r ∈ rowsAscending, r ≤ 7 := fun r => mem_rowsAscending.mp
      exact .rows hb (Nat.not_le.mpr ha) rfl ha hr (writeRows_cases ha hr hu)
  | setled addr x y b =>
    simp only [exec, execSetled] at h
    obtain ⟨hb, st, u, hu, rfl⟩ := whenBound_next h
    split at hu
    · rename_i hc
      cases hu
      exact .outOfBounds (fun _ => hb) (by
        simp only [Bool.or_eq_true, noDevice_iff, decide_eq_true_eq, or_assoc] at hc
        exact hc)
    · rename_i hc
      have hc' : addr < s.params.chainLength ∧ x ≤ 7 ∧ y ≤ 7 := by
        simp only [Bool.or_eq_true, noDevice_iff, decide_eq_true_eq, not_or, not_le, not_lt, and_assoc] at hc
        exact hc
      have hr : ∀ r ∈ [x], r ≤ 7 := by simpa using hc'.2.1
      rw [writeThrough_eq_writeRows (f := fun _ => setColumnBit y b)] at hu
      exact .rows hb (by simp [Instr.outOfRange]; omega) rfl hc'.1 hr (writeRows_cases hc'.1 hr hu)
  | setrow addr row value =>
    simp only [exec, execSetrow] at h
    obtain ⟨hb, st, u, hu, rfl⟩ := whenBound_next h
    split at hu
    · rename_i hc
      cases hu
      exact .outOfBounds (fun _ => hb) (by
        simp only [Bool.or_eq_true, noDevice_iff, decide_eq_true_eq] at hc
        exact hc)
    · rename_i hc
      have hc' : addr < s.params.chainLength ∧ row ≤ 7 := by
        simp only [Bool.or_eq_true, noDevice_iff, decide_eq_true_eq, not_or, not_le, not_lt] at hc
        exact hc
      have hr : ∀ r ∈ [row], r ≤ 7 := by simpa using hc'.2
      rw [writeThrough_eq_writeRows (f := fun _ _ => valueByte value)] at hu
      exact .rows hb (by simp [Instr.outOfRange]; omega) rfl hc'.1 hr (writeRows_cases hc'.1 hr hu)
  | setcol addr column value =>
    simp only [exec, execSetcol] at h
    obtain ⟨hb, st, u, hu, rfl⟩ := whenBound_next h
    split at hu
    · rename_i hc
      cases hu
      exact .outOfBounds (fun _ => hb) (by
        simp only [Bool.or_eq_true, noDevice_iff, decide_eq_true_eq] at hc
        exact hc)
    · rename_i hc
      have hc' : addr < s.params.chainLength ∧ column ≤ 7 := by
        simp only [Bool.or_eq_true, noDevice_iff, decide_eq_true_eq, not_or, not_le, not_lt] at hc
        exact hc
      have hr : ∀ r ∈ setcolOrder s.params, r ≤ 7 := fun r => mem_setcolOrder.mp
      exact .rows hb (by simp [Instr.outOfRange]; omega) rfl hc'.1 hr (writeRows_cases hc'.1 hr hu)
  | wrreg addr reg value =>
    simp only [exec, execWrreg] at h
    cases hu : writeRegister addr reg (valueByte value) s with
    | error e => rw [hu] at h; cases h
    | ok p =>
      obtain ⟨st, u⟩ := p
      rw [hu] at h
      cases h
      exact writeRegister_effect (fun c => by cases c) rfl Iff.rfl hu
  | noop | digit0 | digit1 | digit2 | digit3 | digit4 | digit5 | digit6 | digit7 | decodeMode | intensityReg | scanLimit | shutdownReg
  | reserved0d | reserved0e | displayTestReg => exact latchAt_effect rfl (by decide) h

/-! ### The other direction: what runs -/

/-- An instruction that is one register write makes it. -/
theorem exec_registerWrite {addr reg : Nat} {value : Byte} (hb : i.isCommand = true → s.bound = true)
    (hin : ¬ i.outOfRange s.params.chainLength) (h : i.registerWrite = some (addr, reg, value)) :
    exec i s = respond (writeRegister addr reg value s) := by
  cases i <;> cases h
  · simp [exec, execShutdown, whenBound, hb rfl]
  · have hl : ¬ levelLast < _ := fun c => hin (.inr c)
    simp [exec, execIntensity, whenBound, hb rfl, hl]
  · simp [exec, execDisptest, whenBound, hb rfl]
  · rfl

/-- A frame operation whose operands are in range writes its rows. -/
theorem exec_rowWrites {addr : Nat} {f : Nat → Byte → Byte} {rows : List Nat} (hb : s.bound = true)
    (hin : ¬ i.outOfRange s.params.chainLength) (h : i.rowWrites s.params = some (addr, f, rows)) :
    exec i s = respond (writeRows addr f rows s) := by
  cases i <;> cases h
  · have hd : s.noDevice addr = false := by simpa [Instr.outOfRange, State.noDevice] using hin
    simp [exec, execClear, whenBound, hb, hd]
  · rename_i x y b
    have hd : s.noDevice addr = false := by simp [Instr.outOfRange] at hin; simp [State.noDevice, hin]
    have hx : ¬ lineLast < x := by simp [Instr.outOfRange] at hin; exact Nat.not_lt.mpr hin.2.1
    have hy : ¬ lineLast < y := by simp [Instr.outOfRange] at hin; exact Nat.not_lt.mpr hin.2.2
    simp [exec, execSetled, whenBound, hb, hd, hx, hy, ← writeThrough_eq_writeRows]
  · rename_i row value
    have hd : s.noDevice addr = false := by simp [Instr.outOfRange] at hin; simp [State.noDevice, hin]
    have hr : ¬ lineLast < row := by simp [Instr.outOfRange] at hin; exact Nat.not_lt.mpr hin.2
    simp [exec, execSetrow, whenBound, hb, hd, hr, ← writeThrough_eq_writeRows]
  · rename_i column value
    have hd : s.noDevice addr = false := by simp [Instr.outOfRange] at hin; simp [State.noDevice, hin]
    have hc : ¬ lineLast < column := by simp [Instr.outOfRange] at hin; exact Nat.not_lt.mpr hin.2
    simp [exec, execSetcol, whenBound, hb, hd, hc]

/-- A wire pair in a slot of the chain is latched. -/
theorem exec_latched {slot reg : Nat} {value : Byte} (h : i.latched = some (slot, reg, value)) (hs : slot < s.params.chainLength) :
    exec i s = .next (s.latchedPair slot reg value) := by
  cases i <;> cases h <;> exact latchAt_next hs

end Sys2Proof.Machine
end

