-- ==== Sys2Proof/Laws/PerInstr.lean ====
section
/-! SUPPORT. Per-instruction families. `PortOfEncoding`: a well-formed instruction's bits stand at the port of its kind, and are none of
the reserved encodings. -/

namespace Sys2Proof

/-- The encoder's words have zero reserved bits and the opcode given (30_encoding.md R78). -/
theorem commandWord_op {op addr a b : Nat} {s : Bool} (hop : op < 16) (h : addr < 256 ∧ a < 256 ∧ b < 256) :
    fieldOp (commandWord op s addr a b) = op ∧ fieldRsv (commandWord op s addr a b) = 0 := by
  have hs : s.toNat < 2 := by cases s <;> decide
  have hw : (commandWord op s addr a b).toNat = op * 2 ^ 28 + 0 * 2 ^ 25 + s.toNat * 2 ^ 24 + addr * 2 ^ 16 + a * 2 ^ 8 + b := by
    rw [commandWord_toNat]
    omega
  obtain ⟨ho, hr, -⟩ := fields_of_parts (by decide) hs h.1 h.2.1 h.2.2 hw
  exact ⟨ho, hr⟩

namespace Laws.PortOfEncoding

/-- A command goes to the command port with `rsv = 0` and an assigned opcode (R78 to R83), the primitive to its own port (R84), a wire pair
into a slot with a register address `0x00..0x0F` (R43, R51, R70). -/
def Statement (i : Instr) : Prop :=
  i.wellFormed = true →
  match encode i with
  | .command w => i.isCommand = true ∧ fieldOp w < 8 ∧ fieldRsv w = 0
  | .primitive _ _ => i.isCommand = false ∧ i.returnsStatus = true
  | .pair _ p => i.returnsStatus = false ∧ pairRegister p ≤ 0x0F

theorem ofCommandWord {i : Instr} {op addr a b : Nat} {s : Bool} (he : encode i = .command (commandWord op s addr a b))
    (hc : i.isCommand = true) (hop : op < 8) (h : i.wellFormed = true → addr < 256 ∧ a < 256 ∧ b < 256) : Statement i := fun hwf => by
  rw [he]
  obtain ⟨ho, hr⟩ := commandWord_op (s := s) (show op < 16 by omega) (h hwf)
  exact ⟨hc, by omega, hr⟩

theorem ofPair {i : Instr} {reg slot : Nat} {v : Byte} (he : encode i = pairRequest reg slot v) (hc : i.returnsStatus = false)
    (hr : reg ≤ 0x0F) : Statement i := fun _ => by
  rw [he]
  exact ⟨hc, by rw [pairRegister_pairWord (by omega)]; exact hr⟩

theorem init (t : Bool) : Statement (.init t) := ofCommandWord rfl rfl (by decide) fun _ => by decide

theorem shutdown (addr : Nat) (s : Bool) : Statement (.shutdown addr s) :=
  ofCommandWord rfl rfl (by decide) fun h => by simp [Instr.wellFormed, isOperand_iff] at h; omega

theorem intensity (addr level : Nat) : Statement (.intensity addr level) :=
  ofCommandWord rfl rfl (by decide) fun h => by simp [Instr.wellFormed, isOperand_iff] at h; omega

theorem disptest (addr : Nat) (s : Bool) : Statement (.disptest addr s) :=
  ofCommandWord rfl rfl (by decide) fun h => by simp [Instr.wellFormed, isOperand_iff] at h; omega

theorem clear (addr : Nat) : Statement (.clear addr) :=
  ofCommandWord rfl rfl (by decide) fun h => by simp [Instr.wellFormed, isOperand_iff] at h; omega

theorem setled (addr x y : Nat) (s : Bool) : Statement (.setled addr x y s) :=
  ofCommandWord rfl rfl (by decide) fun h => by simp [Instr.wellFormed, isOperand_iff] at h; omega

theorem setrow (addr row : Nat) (value : Operand) : Statement (.setrow addr row value) :=
  ofCommandWord rfl rfl (by decide) fun h => by
    have : value.toNat < 2 ^ 8 := value.isLt
    simp [Instr.wellFormed, isOperand_iff] at h
    omega

theorem setcol (addr column : Nat) (value : Operand) : Statement (.setcol addr column value) :=
  ofCommandWord rfl rfl (by decide) fun h => by
    have : value.toNat < 2 ^ 8 := value.isLt
    simp [Instr.wellFormed, isOperand_iff] at h
    omega

theorem wrreg (addr reg : Nat) (value : Operand) : Statement (.wrreg addr reg value) := fun _ => ⟨rfl, rfl⟩

theorem noop (slot : Nat) (value : Byte) : Statement (.noop slot value) := ofPair rfl rfl (by decide)

theorem digit0 (slot : Nat) (value : Byte) : Statement (.digit0 slot value) := ofPair rfl rfl (by decide)

theorem digit1 (slot : Nat) (value : Byte) : Statement (.digit1 slot value) := ofPair rfl rfl (by decide)

theorem digit2 (slot : Nat) (value : Byte) : Statement (.digit2 slot value) := ofPair rfl rfl (by decide)

theorem digit3 (slot : Nat) (value : Byte) : Statement (.digit3 slot value) := ofPair rfl rfl (by decide)

theorem digit4 (slot : Nat) (value : Byte) : Statement (.digit4 slot value) := ofPair rfl rfl (by decide)

theorem digit5 (slot : Nat) (value : Byte) : Statement (.digit5 slot value) := ofPair rfl rfl (by decide)

theorem digit6 (slot : Nat) (value : Byte) : Statement (.digit6 slot value) := ofPair rfl rfl (by decide)

theorem digit7 (slot : Nat) (value : Byte) : Statement (.digit7 slot value) := ofPair rfl rfl (by decide)

theorem decodeMode (slot : Nat) (value : Byte) : Statement (.decodeMode slot value) := ofPair rfl rfl (by decide)

theorem intensityReg (slot : Nat) (value : Byte) : Statement (.intensityReg slot value) := ofPair rfl rfl (by decide)

theorem scanLimit (slot : Nat) (value : Byte) : Statement (.scanLimit slot value) := ofPair rfl rfl (by decide)

theorem shutdownReg (slot : Nat) (value : Byte) : Statement (.shutdownReg slot value) := ofPair rfl rfl (by decide)

theorem reserved0d (slot : Nat) (value : Byte) : Statement (.reserved0d slot value) := ofPair rfl rfl (by decide)

theorem reserved0e (slot : Nat) (value : Byte) : Statement (.reserved0e slot value) := ofPair rfl rfl (by decide)

theorem displayTestReg (slot : Nat) (value : Byte) : Statement (.displayTestReg slot value) := ofPair rfl rfl (by decide)

end Laws.PortOfEncoding

end Sys2Proof
end

