-- ==== Sys2Proof/Laws/RowsFrame.lean ====
section
/-! SUPPORT. What a composite leaves alone, what it makes of its rows, and when it runs. -/

namespace Sys2Proof.Machine

variable {s t : State} {addr d r : Nat} {st : Status} {f : Nat → Byte → Byte} {rows : List Nat}

theorem RowsWritten.params (h : RowsWritten addr f rows s st t) : t.params = s.params := by
  induction h with
  | done | failed => rfl
  | more _ _ _ ih => exact ih

theorem RowsWritten.bound (h : RowsWritten addr f rows s st t) : t.bound = s.bound := by
  induction h with
  | done | failed => rfl
  | more _ _ _ ih => exact ih

theorem RowsWritten.requests (h : RowsWritten addr f rows s st t) : t.requests = s.requests := by
  induction h with
  | done | failed => rfl
  | more _ _ _ ih => exact ih

theorem RowsWritten.frame_length (h : RowsWritten addr f rows s st t) : t.frame.length = s.frame.length := by
  induction h with
  | done => rfl
  | failed => simp
  | more _ _ _ ih => simpa using ih

theorem RowsWritten.chips_length (h : RowsWritten addr f rows s st t) : t.chips.length = s.chips.length := by
  induction h with
  | done => rfl
  | failed => simp
  | more _ _ _ ih => simpa using ih

/-- A composite returns `Ok` or `TransportError`. -/
theorem RowsWritten.status (h : RowsWritten addr f rows s st t) : st = .ok ∨ st = .transportError := by
  induction h with
  | done => exact .inl rfl
  | failed => exact .inr rfl
  | more _ _ _ ih => exact ih

/-- Rows and devices that are not written keep their frame bytes. -/
theorem RowsWritten.frameByte_other (h : RowsWritten addr f rows s st t) (hne : d ≠ addr ∨ r ∉ rows) :
    t.frameByte d r = s.frameByte d r := by
  induction h with
  | done => rfl
  | failed _ _ => exact wroteRow_frameByte_ne (hne.imp_right fun h e => h (by simp [e]))
  | more _ _ _ ih =>
    rw [ih (hne.imp_right fun h e => h (by simp [e]))]
    exact wroteRow_frameByte_ne (hne.imp_right fun h e => h (by simp [e]))

/-- Other devices' chips are left alone, whatever the answers. -/
theorem RowsWritten.chips_other (h : RowsWritten addr f rows s st t) (hne : d ≠ addr) : t.chips[d]? = s.chips[d]? := by
  induction h with
  | done => rfl
  | failed _ _ => simp [chipsAfter_other hne]
  | more _ _ _ ih => rw [ih]; simp [chipsAfter_other hne]

/-- The digit registers of rows that are not written keep their values, whatever the answers (70_reset_and_hazards.md R174). -/
theorem RowsWritten.chipByte_other {r : Nat} (h : RowsWritten addr f rows s st t) (ha : addr < s.params.chainLength) (hr : ∀ q ∈ rows, q ≤ 7)
    (h7 : r ≤ 7) (hne : d ≠ addr ∨ r ∉ rows) : t.chipByte d (0x01 + r) = s.chipByte d (0x01 + r) := by
  induction h with
  | done => rfl
  | failed _ _ => exact wroteRow_chipByte_ne ha (hr _ (by simp)) h7 (hne.imp_right fun h e => h (by simp [e]))
  | more _ _ _ ih =>
    rw [ih ha (fun q hq => hr q (by simp [hq])) (hne.imp_right fun h e => h (by simp [e]))]
    exact wroteRow_chipByte_ne ha (hr _ (by simp)) h7 (hne.imp_right fun h e => h (by simp [e]))

/-- The calls a composite makes: to its rows in order, each of the updated row, answered success but for the last of a failed one. -/
theorem RowsWritten.calls (h : RowsWritten addr f rows s st t) :
    ∃ done new, rows.take new.length = done ∧ t.calls = s.calls ++ new ∧ new.length ≤ rows.length ∧
      List.Forall₂ (fun r c => ∃ v, c.buf = transaction s.params.chainLength addr (digitRegister r) v) done new ∧
      (st = .ok → done = rows ∧ ∀ c ∈ new, c.answer = true) ∧
      (st = .transportError → ∃ before last, new = before ++ [last] ∧ last.answer = false ∧ ∀ c ∈ before, c.answer = true) := by
  induction h with
  | done s => exact ⟨[], [], by simp⟩
  | @failed s r rest old _ _ =>
    refine ⟨[r], [⟨transaction s.params.chainLength addr (digitRegister r) (f r old), false⟩], by simp, rfl, by simp,
      .cons ⟨_, rfl⟩ .nil, by simp, fun _ => ⟨[], _, rfl, rfl, by simp⟩⟩
  | @more s t st r rest old _ _ _ ih =>
    obtain ⟨done, new, hd, hc, hl, hf, hok, hte⟩ := ih
    refine ⟨r :: done, ⟨transaction s.params.chainLength addr (digitRegister r) (f r old), true⟩ :: new, by simp [hd], by simp [hc],
      by simpa using hl, .cons ⟨_, rfl⟩ hf, fun e => ?_, fun e => ?_⟩
    · obtain ⟨hdone, htrue⟩ := hok e
      exact ⟨by rw [hdone], by simpa using htrue⟩
    · obtain ⟨before, last, rfl, hlast, hbefore⟩ := hte e
      exact ⟨_ :: before, last, rfl, hlast, by simpa using hbefore⟩

/-- A composite whose rows exist and whose calls are answered runs to a status. -/
theorem RowsWritten.exists (hf : ∀ r ∈ rows, ∃ v, s.frameByte addr r = some v) (ha : ∀ k < rows.length, s.answerAt k ≠ none) :
    ∃ st t, RowsWritten addr f rows s st t := by
  induction rows generalizing s with
  | nil => exact ⟨_, _, .done s⟩
  | cons r rest ih =>
    obtain ⟨old, hold⟩ := hf r (by simp)
    cases hans : s.answerAt 0 with
    | none => exact absurd hans (ha 0 (by simp))
    | some ok =>
      cases ok
      · exact ⟨_, _, .failed hold hans⟩
      · have hf' : ∀ q ∈ rest, ∃ v, (s.wroteRow addr r (f r old) true).frameByte addr q = some v := fun q hq => by
          by_cases e : q = r
          · exact ⟨_, by rw [e]; exact wroteRow_frameByte_same hold⟩
          · rw [wroteRow_frameByte_ne (.inr e)]
            exact hf q (by simp [hq])
        obtain ⟨st, t, h⟩ := ih hf' fun k hk => by
          rw [wroteRow_answerAt]
          exact ha (k + 1) (by simpa using hk)
        exact ⟨st, t, .more hold hans h⟩

/-- After success every row holds what the composite makes of the row it found, when no row is written twice. -/
theorem RowsWritten.frameByte_ok (h : RowsWritten addr f rows s .ok t) (hn : rows.Nodup) (hr : r ∈ rows) :
    ∃ old, s.frameByte addr r = some old ∧ t.frameByte addr r = some (f r old) := by
  generalize hst : Status.ok = st at h
  induction h with
  | done => simp at hr
  | failed => cases hst
  | @more s t st q rest old hf _ h ih =>
    rw [List.nodup_cons] at hn
    rcases List.mem_cons.mp hr with rfl | hr'
    · exact ⟨old, hf, by rw [h.frameByte_other (.inr hn.1)]; exact wroteRow_frameByte_same hf⟩
    · obtain ⟨o, ho, ht⟩ := ih hn.2 hr' hst
      rw [wroteRow_frameByte_ne (.inr fun e : r = q => hn.1 (e ▸ hr'))] at ho
      exact ⟨o, ho, ht⟩

theorem rowsAscending_nodup : rowsAscending.Nodup := by decide

theorem setcolOrder_nodup (p : Params) : (setcolOrder p).Nodup := by
  unfold setcolOrder
  split
  · exact rowsAscending_nodup
  · exact List.nodup_reverse.mpr rowsAscending_nodup

end Sys2Proof.Machine
end

