-- ==== Sys2Proof/Tests/Slice0.lean ====
section
/-! SUPPORT. The model's own tests, expected results from spec/ (95_test_vectors.md unless a comment says otherwise), and for every statement with
hypotheses a witness that meets them. -/

namespace Sys2Proof.Tests

open Sys2Proof.Machine

/-- A bound block with these frames, one per device, chips that hold 0xEE everywhere, and these answers to come. -/
def block (frames : List Rows) (replies : List Reply) : State :=
  { params := { chainLength := frames.length, setcolMsbIsRow0 := true, setcolAscending := true }
    frame := frames
    bound := true
    result := none
    calls := []
    chips := frames.map fun _ => ChipRegs.ofBytes fun _ => 0xEE
    requests := []
    replies := replies
    draws := 0 }

/-- A frame of eight rows that hold the same byte. -/
def rows (v : Byte) : Rows := Vector.replicate 8 v

/-- `n` answers of success. -/
def oks (n : Nat) : List Reply := List.replicate n .success

/-- One step on a command word. -/
def run (w : Word) (s : State) : Host.Outcome State Fault Refusal := step (s.present (.command w))

/-- What a step that goes on leaves: status, frame, and the bytes of its calls with their answers. -/
def shown : Host.Outcome State Fault Refusal → Option (Option Status × List Rows × List (List Byte × Bool))
  | .next t => some (t.result, t.frame, t.calls.map fun c => (c.buf, c.answer))
  | .fault _ => none
  | .refused _ => none

/-- The register a step that goes on leaves in a chip. -/
def register (d reg : Nat) : Host.Outcome State Fault Refusal → Option Byte
  | .next t => t.chipByte d reg
  | .fault _ => none
  | .refused _ => none

/-- The fault a step ends in. -/
def faultOf : Host.Outcome State Fault Refusal → Option Fault
  | .fault f => some f
  | .next _ => none
  | .refused _ => none

theorem block_inv {frames : List Rows} {replies : List Reply} (h : 1 ≤ frames.length) (h' : frames.length ≤ 255) :
    (block frames replies).Inv :=
  ⟨params_wellFormed_iff.mpr ⟨h, h'⟩, rfl, by simp [block], by simp [block]⟩

/-! ### WellFormed: one ill-formed term for each check -/

theorem test_address_too_wide : (Instr.clear 256).wellFormed = false := by decide
theorem test_level_too_wide : (Instr.intensity 0 256).wellFormed = false := by decide
theorem test_x_too_wide : (Instr.setled 0 256 0 true).wellFormed = false := by decide
theorem test_y_too_wide : (Instr.setled 0 0 256 true).wellFormed = false := by decide
theorem test_row_too_wide : (Instr.setrow 0 256 0).wellFormed = false := by decide
theorem test_column_too_wide : (Instr.setcol 0 256 0).wellFormed = false := by decide
theorem test_register_too_wide : (Instr.wrreg 0 256 0).wellFormed = false := by decide
theorem test_slot_too_wide : (Instr.digit3 256 0).wellFormed = false := by decide
theorem test_other_addresses_too_wide : [Instr.shutdown 256 true, .intensity 256 0, .disptest 256 true, .setled 256 0 0 true,
    .setrow 256 0 0, .setcol 256 0 0, .wrreg 256 0 0].all (fun i => i.wellFormed) = false := by decide
theorem test_widest_operands : (Instr.setled 255 255 255 true).wellFormed = true := by decide
theorem test_empty_chain : Params.wellFormed ⟨0, true, true⟩ = false := by decide
theorem test_chain_too_long : Params.wellFormed ⟨256, true, true⟩ = false := by decide

/-! ### Decode: every constructor from a word written out (30_encoding.md R78 to R80, 20_memory.md R51, 95_test_vectors.md 2.1) -/

theorem test_decode_init : decode (.command 0b00000001000000000000000000000000) = .ok (.init true) := by decide
theorem test_decode_shutdown : decode (.command 0b00010001000000100000000000000000) = .ok (.shutdown 2 true) := by decide
theorem test_decode_intensity : decode (.command 0b00100000000000010000111100000000) = .ok (.intensity 1 15) := by decide
theorem test_decode_disptest : decode (.command 0b00110000000000010000000000000000) = .ok (.disptest 1 false) := by decide
theorem test_decode_clear : decode (.command 0b01000000000000001111111111111111) = .ok (.clear 0) := by decide
theorem test_decode_setled : decode (.command 0b01010001000000000000001100000010) = .ok (.setled 0 3 2 true) := by decide
theorem test_decode_setrow : decode (.command 0b01100000000000000000010010110000) = .ok (.setrow 0 4 0xB0) := by decide
theorem test_decode_setcol : decode (.command 0b01110000000000010000001011000001) = .ok (.setcol 1 2 0xC1) := by decide
theorem test_decode_wrreg : decode (.primitive 2 0b0000110000000001) = .ok (.wrreg 2 0x0C 0x01) := by decide
theorem test_decode_noop : decode (.pair 1 0b0000000001010011) = .ok (.noop 1 0x53) := by decide
theorem test_decode_digit0 : decode (.pair 1 0b0000000101010011) = .ok (.digit0 1 0x53) := by decide
theorem test_decode_digit1 : decode (.pair 1 0b0000001001010011) = .ok (.digit1 1 0x53) := by decide
theorem test_decode_digit2 : decode (.pair 1 0b0000001101010011) = .ok (.digit2 1 0x53) := by decide
theorem test_decode_digit3 : decode (.pair 1 0b0000010001010011) = .ok (.digit3 1 0x53) := by decide
theorem test_decode_digit4 : decode (.pair 1 0b0000010101010011) = .ok (.digit4 1 0x53) := by decide
theorem test_decode_digit5 : decode (.pair 1 0b0000011001010011) = .ok (.digit5 1 0x53) := by decide
theorem test_decode_digit6 : decode (.pair 1 0b0000011101010011) = .ok (.digit6 1 0x53) := by decide
theorem test_decode_digit7 : decode (.pair 1 0b0000100001010011) = .ok (.digit7 1 0x53) := by decide
theorem test_decode_decodeMode : decode (.pair 1 0b0000100101010011) = .ok (.decodeMode 1 0x53) := by decide
theorem test_decode_intensityReg : decode (.pair 1 0b0000101001010011) = .ok (.intensityReg 1 0x53) := by decide
theorem test_decode_scanLimit : decode (.pair 1 0b0000101101010011) = .ok (.scanLimit 1 0x53) := by decide
theorem test_decode_shutdownReg : decode (.pair 1 0b0000110001010011) = .ok (.shutdownReg 1 0x53) := by decide
theorem test_decode_reserved0d : decode (.pair 1 0b0000110101010011) = .ok (.reserved0d 1 0x53) := by decide
theorem test_decode_reserved0e : decode (.pair 1 0b0000111001010011) = .ok (.reserved0e 1 0x53) := by decide
theorem test_decode_displayTestReg : decode (.pair 1 0b0000111101010011) = .ok (.displayTestReg 1 0x53) := by decide
theorem test_decode_reserved_opcode : decode (.command 0x80000000) = .error .reservedOpcode := by decide
theorem test_decode_reserved_bit : decode (.command 0x02000000) = .error .reservedBits := by decide
theorem test_decode_malformed_pair : decode (.pair 0 0x1000) = .error .malformedPair := by decide
/-- The rows of spec/opcode_table.json, its bit 0 the least significant: a 32-bit word, and a pair whose slot the table has no bits for. -/
theorem test_table_command : decodeTableWord 32 0x51000302 = some (.setled 0 3 2 true) := by decide
theorem test_table_pair : decodeTableWord 16 0x0C01 = some (.shutdownReg 0 0x01) := by decide
theorem test_table_reserved : decodeTableWord 32 0x80000000 = none := by decide
theorem test_fetched_word_runs : step (State.reset.withFetchWord 32 0x01000000) = exec (.init true) State.reset := by rfl
theorem test_fetched_pair_runs : step (State.reset.withFetchWord 16 0x0C01) = exec (.shutdownReg 0 0x01) State.reset := by rfl

/-! ### INIT (2.3) -/

theorem test_init_from_power_on : shown (run 0x01000000 (State.powerOn ⟨2, true, true⟩)) = some (some .ok, [rows 0, rows 0], []) := by decide
theorem test_init_without_transport : shown (run 0x00000000 (block [#v[0x80, 0x40, 0x20, 0x10, 0x08, 0x04, 0x02, 0x01]] [])) =
    some (some .invalidArgument, [#v[0x80, 0x40, 0x20, 0x10, 0x08, 0x04, 0x02, 0x01]], []) := by decide

/-! ### Faults (2.1, 2.3, P5) -/

theorem test_unbound : faultOf (run 0x600000FF State.reset) = some .unbound := by decide
theorem test_illegal_before_unbound : faultOf (run 0x5E000302 State.reset) = some .illegalCommand := by decide

/-! ### SHUTDOWN, INTENSITY, DISPTEST (2.4) -/

theorem test_shutdown_on : shown (run 0x11000000 (block [rows 0x24, rows 0] (oks 1))) =
    some (some .ok, [rows 0x24, rows 0], [([0x0C, 0x00, 0x00, 0x00], true)]) := by decide
theorem test_shutdown_off_fails : shown (run 0x10010000 (block [rows 0, rows 0] [.failure])) =
    some (some .transportError, [rows 0, rows 0], [([0x00, 0x00, 0x0C, 0x01], false)]) := by decide
theorem test_intensity_top : shown (run 0x20010F00 (block [rows 0, rows 0] (oks 1))) =
    some (some .ok, [rows 0, rows 0], [([0x00, 0x00, 0x0A, 0x0F], true)]) := by decide
theorem test_intensity_sixteen : shown (run 0x20011000 (block [rows 0, rows 0] (oks 1))) =
    some (some .outOfBounds, [rows 0, rows 0], []) := by decide
theorem test_disptest_on : shown (run 0x31000000 (block [rows 0, rows 0] (oks 1))) =
    some (some .ok, [rows 0, rows 0], [([0x0F, 0x01, 0x00, 0x00], true)]) := by decide
theorem test_disptest_no_device : shown (run 0x30020000 (block [rows 0, rows 0] (oks 1))) =
    some (some .outOfBounds, [rows 0, rows 0], []) := by decide

/-! ### CLEAR (2.7) -/

theorem test_clear_second_device : shown (run 0x40010000 (block [rows 0xFF, rows 0xFF] (oks 8))) =
    some (some .ok, [rows 0xFF, rows 0x00], [([0, 0, 1, 0], true), ([0, 0, 2, 0], true), ([0, 0, 3, 0], true), ([0, 0, 4, 0], true),
      ([0, 0, 5, 0], true), ([0, 0, 6, 0], true), ([0, 0, 7, 0], true), ([0, 0, 8, 0], true)]) := by decide
/-- P4 command 1, the chip included: digits 0 and 1 hold 00, digits 3 to 7 what they held; nothing is said of digit 2. -/
theorem test_clear_aborts : shown (run 0x40000000 (block [rows 0xFF] [.success, .success, .failure])) =
    some (some .transportError, [#v[0x00, 0x00, 0x00, 0xFF, 0xFF, 0xFF, 0xFF, 0xFF]],
      [([1, 0], true), ([2, 0], true), ([3, 0], false)]) ∧
    [0x01, 0x02, 0x04, 0x05, 0x06, 0x07, 0x08].map (register 0 · (run 0x40000000 (block [rows 0xFF] [.success, .success, .failure]))) =
      [some 0x00, some 0x00, some 0xEE, some 0xEE, some 0xEE, some 0xEE, some 0xEE] := by decide

/-! ### SETLED (S4, 2.5) -/

theorem test_setled_keeps_the_row : shown (run 0x51000305 (block [#v[0, 0, 0, 0x20, 0, 0, 0, 0]] (oks 1))) =
    some (some .ok, [#v[0, 0, 0, 0x24, 0, 0, 0, 0]], [([0x04, 0x24], true)]) := by decide
theorem test_setled_darkens : shown (run 0x50000007 (block [#v[0x7F, 0, 0, 0, 0, 0, 0, 0]] (oks 1))) =
    some (some .ok, [#v[0x7E, 0, 0, 0, 0, 0, 0, 0]], [([0x01, 0x7E], true)]) := by decide

/-! ### SETROW (P3 command 4, 2.6) -/

theorem test_setrow_kept_after_failure : shown (run 0x6001057E (block [rows 0, rows 0, rows 0] [.failure])) =
    some (some .transportError, [rows 0, #v[0, 0, 0, 0, 0, 0x7E, 0, 0], rows 0], [([0, 0, 0x06, 0x7E, 0, 0], false)]) := by decide
theorem test_setrow_row_eight : shown (run 0x600008FF (block [rows 0x24] (oks 1))) = some (some .outOfBounds, [rows 0x24], []) := by decide

/-! ### SETCOL (2.8) -/

theorem test_setcol : shown (run 0x700102C1 (block [rows 0, #v[0xFF, 0, 0, 0, 0, 0, 0, 0x81]] (oks 8))) =
    some (some .ok, [rows 0, #v[0xFF, 0x20, 0, 0, 0, 0, 0, 0xA1]],
      [([0, 0, 1, 0xFF], true), ([0, 0, 2, 0x20], true), ([0, 0, 3, 0], true), ([0, 0, 4, 0], true),
      ([0, 0, 5, 0], true), ([0, 0, 6, 0], true), ([0, 0, 7, 0], true), ([0, 0, 8, 0xA1], true)]) := by decide
/-- The third row with the other value of `SETCOL_MSB_IS_ROW0`; and the other value of `SETCOL_ASCENDING`, rows 7 down to 0 (the model's choice,
log 20), where row 7 is written first, so a failure at the second step leaves rows 5 to 0 alone. -/
theorem test_setcol_other_parameters :
    (shown (run 0x700102C1 { block [rows 0, #v[0xFF, 0, 0, 0, 0, 0, 0, 0x81]] (oks 8) with params := ⟨2, false, true⟩ })).map (·.2.1) =
      some [rows 0, #v[0xFF, 0, 0, 0, 0, 0, 0x20, 0xA1]] ∧
    shown (run 0x700007FF { block [rows 0] [.success, .failure] with params := ⟨1, true, false⟩ }) =
      some (some .transportError, [#v[0, 0, 0, 0, 0, 0, 0x01, 0x01]], [([0x08, 0x01], true), ([0x07, 0x01], false)]) := by decide

/-! ### WRREG (2.2) -/

theorem test_wrreg_noop_register : shown (exec (.wrreg 1 0x00 0x77) (block [rows 0, rows 0] (oks 1))) =
    some (some .ok, [rows 0, rows 0], [([0, 0, 0, 0x77], true)]) := by decide
theorem test_wrreg_register_sixteen : shown (exec (.wrreg 0 0x10 0x00) (block [rows 0] (oks 1))) =
    some (some .outOfBounds, [rows 0], []) := by decide
theorem test_transaction : transaction 4 2 0x0C 0x01 = [0x00, 0x00, 0x00, 0x00, 0x0C, 0x01, 0x00, 0x00] := by decide

/-! ### The chips (60_exceptions.md R158, R160) -/

theorem test_noop : (List.range 16).all (fun a => register 0 a (exec (.noop 0 0x77) (block [rows 0] [])) ==
    (block [rows 0] []).chipByte 0 a) = true := by decide
theorem test_digit0 : register 1 0x01 (exec (.digit0 1 0x3C) (block [rows 0, rows 0] [])) = some 0x3C := by decide
theorem test_digit1 : register 1 0x02 (exec (.digit1 1 0x3C) (block [rows 0, rows 0] [])) = some 0x3C := by decide
theorem test_digit2 : register 1 0x03 (exec (.digit2 1 0x3C) (block [rows 0, rows 0] [])) = some 0x3C := by decide
theorem test_digit3 : register 1 0x04 (exec (.digit3 1 0x3C) (block [rows 0, rows 0] [])) = some 0x3C := by decide
theorem test_digit4 : register 1 0x05 (exec (.digit4 1 0x3C) (block [rows 0, rows 0] [])) = some 0x3C := by decide
theorem test_digit5 : register 1 0x06 (exec (.digit5 1 0x3C) (block [rows 0, rows 0] [])) = some 0x3C := by decide
theorem test_digit6 : register 1 0x07 (exec (.digit6 1 0x3C) (block [rows 0, rows 0] [])) = some 0x3C := by decide
theorem test_digit7 : register 1 0x08 (exec (.digit7 1 0x3C) (block [rows 0, rows 0] [])) = some 0x3C := by decide
theorem test_decodeMode : register 1 0x09 (exec (.decodeMode 1 0x3C) (block [rows 0, rows 0] [])) = some 0x3C := by decide
theorem test_intensityReg : register 1 0x0A (exec (.intensityReg 1 0x3C) (block [rows 0, rows 0] [])) = some 0x3C := by decide
theorem test_scanLimit : register 1 0x0B (exec (.scanLimit 1 0x3C) (block [rows 0, rows 0] [])) = some 0x3C := by decide
theorem test_shutdownReg : register 1 0x0C (exec (.shutdownReg 1 0x3C) (block [rows 0, rows 0] [])) = some 0x3C := by decide
theorem test_displayTestReg : register 1 0x0F (exec (.displayTestReg 1 0x3C) (block [rows 0, rows 0] [])) = some 0x3C := by decide
theorem test_digit7_only : register 1 0x07 (exec (.digit7 1 0x3C) (block [rows 0, rows 0] [])) = some 0xEE := by decide
theorem test_reserved_other_device : register 0 0x01 (exec (.reserved0d 1 0x55) (block [rows 0, rows 0] [])) = some 0xEE ∧
    register 0 0x0E (exec (.reserved0e 1 0x55) (block [rows 0, rows 0] [])) = some 0xEE := by decide
theorem test_slot_beyond_chain : faultOf (exec (.digit0 2 0x01) (block [rows 0, rows 0] [])) = some .noSuchSlot := by decide
theorem test_accepted_write_is_latched : register 1 0x0C (exec (.shutdown 1 false) (block [rows 0, rows 0] (oks 1))) = some 0x01 := by decide

/-! ### Witnesses: for every statement with hypotheses, a state and operands that meet all of them -/

/-- Two devices, every answer to come success. -/
def pair8 : State := block [rows 0xFF, rows 0x24] (oks 8)

theorem pair8_inv : pair8.Inv := block_inv (by decide) (by decide)

/-- Two devices, the answers to come given. -/
theorem two_inv (replies : List Reply) : (block [rows 0xFF, rows 0x24] replies).Inv := block_inv (by decide) (by decide)

/-- DecodeOfEncodeIsTheInstruction. -/
theorem witness_wellFormed : (Instr.init true).wellFormed = true ∧ (Instr.setled 255 255 255 true).wellFormed = true ∧
    (Instr.wrreg 255 255 0xFF).wellFormed = true ∧ (Instr.displayTestReg 255 0xFF).wellFormed = true := by decide

/-- ReservedCommandWordsAreRejected, both clauses at both ends of their ranges. -/
theorem witness_reserved_words : (1#3 ≠ 0#3 ∧ 7#3 ≠ 0#3) ∧ 8 ≤ (0x8#4).toNat ∧ 8 ≤ (0xF#4).toNat := by decide

/-- PairsDecodeByTheirRegisterByte, the last clause at both ends. -/
theorem witness_malformed_register : 0x0F < (0x10#8).toNat ∧ 0x0F < (0xFF#8).toNat := by decide

/-- DecodedInstructionsFitTheirFields. -/
theorem witness_decodes : decode (.command 0x7FFFFFFF) = .error .reservedBits ∧ decode (.command 0x71FFFFFF) = .ok (.setcol 255 255 0xFF) ∧
    decode (.primitive 255 0xFFFF) = .ok (.wrreg 255 255 0xFF) := by decide

/-- StepRunsTheDecodedRequest. -/
theorem witness_step : (pair8.present (.command 0x51000302)).requests = .command 0x51000302 :: [] ∧
    decode (.command 0x51000302) = .ok (.setled 0 3 2 true) := by decide

/-- BitsThatAreNoInstructionStopTheStep, each clause at the ends of its range. -/
theorem witness_no_instruction :
    (pair8.present (.command 0x02000000)).requests = .command 0x02000000 :: [] ∧ (0x02000000#32).extractLsb' 25 3 ≠ 0#3 ∧
    (0x0E000000#32).extractLsb' 25 3 ≠ 0#3 ∧ 8 ≤ ((0x80000000#32).extractLsb' 28 4).toNat ∧ 8 ≤ ((0xF0000000#32).extractLsb' 28 4).toNat ∧
    (pair8.present (.pair 1 0x1000)).requests = .pair 1 0x1000 :: [] ∧ 0x0F < ((0x1000#16).extractLsb' 8 8).toNat ∧
    0x0F < ((0xFF00#16).extractLsb' 8 8).toNat := by decide

/-- IdleBlockWaits. -/
theorem witness_idle : pair8.requests = [] := by decide

/-- CommandsBeforeInitFault. -/
theorem witness_unbound : (Instr.setrow 0 0 0xFF).isCommand = true ∧ (∀ t, Instr.setrow 0 0 0xFF ≠ .init t) ∧ State.reset.bound = false := by
  decide

/-- OnlyInitWritesBound, ConfigurationAndRequestsNeverChange, FrameChangesOnlyWhereTheOperationWrites. -/
theorem witness_next : (∃ t, exec (.init true) State.reset = .next t) ∧ (∃ t, exec (.setled 0 3 2 true) pair8 = .next t) ∧
    ¬ (Instr.setled 0 3 2 true).mayWrite 1 3 ∧ ¬ (Instr.setled 0 3 2 true).mayWrite 0 7 :=
  ⟨⟨_, rfl⟩, ⟨_, rfl⟩, by simp [Instr.mayWrite], by simp [Instr.mayWrite]⟩

/-- PowerOnMeetsTheInvariant, the shortest and the longest chain. -/
theorem witness_params : Params.wellFormed ⟨1, true, true⟩ = true ∧ Params.wellFormed ⟨255, false, false⟩ = true := by decide

/-- EveryStepKeepsTheInvariant, RunsKeepConfigurationLifecycleAndHistory. -/
theorem witness_run : (pair8.present (.command 0x51000302)).Inv ∧ (∃ t, step (pair8.present (.command 0x51000302)) = .next t) ∧
    ∃ t, Sys2Proof.core.run 2 (pair8.present (.command 0x51000302)) = .next t :=
  ⟨⟨pair8_inv.params, pair8_inv.frame, pair8_inv.chips, pair8_inv.calls⟩, ⟨_, rfl⟩, ⟨_, rfl⟩⟩

/-- EveryTransactionIsATargetedWrite, NoTransactionDependsOnEarlierOnes, CommandsReachOnlyTheirRegisters,
UnreachableChipRegistersKeepTheirValues. -/
theorem witness_command_next : (Instr.clear 1).isCommand = true ∧
    ∃ t, exec (.clear 1) pair8 = .next t ∧ t.calls ≠ [] ∧ t.result ≠ some .transportError := ⟨rfl, _, rfl, by decide, by decide⟩

/-- OnlyTheAddressedDeviceChanges. -/
theorem witness_other_device : (∃ t, exec (.reserved0d 1 0x55) pair8 = .next t) ∧ (Instr.reserved0d 1 0x55).device ≠ some 0 :=
  ⟨⟨_, rfl⟩, by decide⟩

/-- TransportChangesNeitherFrameNorBound, both answers. -/
theorem witness_transport : (∃ t, transport [0, 0, 1, 0] pair8 = .ok (true, t)) ∧
    ∃ t, transport [0, 0, 1, 0] (block [rows 0, rows 0] [.failure]) = .ok (false, t) := ⟨⟨_, rfl⟩, ⟨_, rfl⟩⟩

/-- FailureEndsTheCommandAtThatCall, each of its statuses. -/
theorem witness_statuses : (Instr.clear 1).returnsStatus = true ∧
    (∃ t, exec (.clear 1) pair8 = .next t ∧ t.result = some .ok) ∧
    (∃ t, exec (.clear 1) (block [rows 0, rows 0] [.success, .failure]) = .next t ∧ t.result = some .transportError) ∧
    (∃ t, exec (.clear 2) pair8 = .next t ∧ t.result = some .outOfBounds) ∧
    ∃ t, exec (.init false) pair8 = .next t ∧ t.result = some .invalidArgument :=
  ⟨rfl, ⟨_, rfl, rfl⟩, ⟨_, rfl, rfl⟩, ⟨_, rfl, rfl⟩, ⟨_, rfl, rfl⟩⟩

/-- AnsweredCommandsEndWithinEightCalls, ClearZeroesTheDevice, SetcolSetsOneColumn: the first and the last device. -/
theorem witness_answered : pair8.Inv ∧ (Instr.setcol 1 7 0xC1).isCommand = true ∧ pair8.bound = true ∧ 0 < pair8.params.chainLength ∧
    1 < pair8.params.chainLength ∧ (0 ≤ 7 ∧ 7 ≤ 7) ∧ (∀ k, k < 8 → pair8.answerAt k = some true) ∧ ∀ k, k < 8 → pair8.answerAt k ≠ none := by
  refine ⟨pair8_inv, rfl, rfl, by decide, by decide, by decide, by decide, by decide⟩

/-- SetcolSetsOneColumn, SetcolStopsAtTheFirstFailure with the other value of both parameters. -/
theorem witness_other_parameters : ({ pair8 with params := ⟨2, false, false⟩ } : State).Inv ∧
    (∀ k, k < 8 → ({ pair8 with params := ⟨2, false, false⟩ } : State).answerAt k = some true) ∧
    setcolRow ⟨2, false, false⟩ 0 = 7 ∧ setcolRow ⟨2, false, false⟩ 7 = 0 :=
  ⟨⟨by decide, rfl, rfl, by simp [pair8, block]⟩, by decide, by decide, by decide⟩

/-- SilentTransportStopsTheCommand. -/
theorem witness_silent : (block [rows 0xFF, rows 0x24] [.never]).Inv ∧ (block [rows 0xFF, rows 0x24] [.never]).bound = true ∧
    (Instr.setled 1 7 7 true).returnsStatus = true ∧ (∀ t, Instr.setled 1 7 7 true ≠ .init t) ∧
    ¬ (Instr.setled 1 7 7 true).outOfRange 2 ∧ (block [rows 0xFF, rows 0x24] [.never]).answerAt 0 = none :=
  ⟨two_inv _, rfl, rfl, by simp, by simp [Instr.outOfRange], rfl⟩

/-- OutOfRangeOperandsAnswerOutOfBounds: each check of each row of the table at its first bad value, and its last good one. -/
theorem witness_out_of_range : pair8.bound = true ∧
    ((Instr.shutdown 2 true).outOfRange 2 ∧ (Instr.intensity 2 0).outOfRange 2 ∧ (Instr.intensity 1 16).outOfRange 2 ∧
      (Instr.disptest 2 true).outOfRange 2 ∧ (Instr.clear 2).outOfRange 2 ∧ (Instr.setled 2 0 0 true).outOfRange 2 ∧
      (Instr.setled 1 8 0 true).outOfRange 2 ∧ (Instr.setled 1 0 8 true).outOfRange 2 ∧ (Instr.setrow 2 0 0).outOfRange 2 ∧
      (Instr.setrow 1 8 0).outOfRange 2 ∧ (Instr.setcol 2 0 0).outOfRange 2 ∧ (Instr.setcol 1 8 0).outOfRange 2 ∧
      (Instr.wrreg 2 0 0).outOfRange 2 ∧ (Instr.wrreg 1 0x10 0).outOfRange 2) ∧
    (¬ (Instr.shutdown 1 true).outOfRange 2 ∧ ¬ (Instr.intensity 1 15).outOfRange 2 ∧ ¬ (Instr.disptest 1 true).outOfRange 2 ∧
      ¬ (Instr.clear 1).outOfRange 2 ∧ ¬ (Instr.setled 1 7 7 true).outOfRange 2 ∧ ¬ (Instr.setrow 1 7 0).outOfRange 2 ∧
      ¬ (Instr.setcol 1 7 0).outOfRange 2 ∧ ¬ (Instr.wrreg 1 0x0F 0).outOfRange 2) ∧
    ∃ t, exec (.setled 1 8 0 true) pair8 = .next t ∧ t.result = some .outOfBounds :=
  ⟨rfl, by simp [Instr.outOfRange], by simp [Instr.outOfRange], _, rfl, rfl⟩

/-- EarlierStatusHasNoEffect. -/
theorem witness_returnsStatus : (Instr.wrreg 0 0 0).returnsStatus = true ∧ (Instr.clear 0).returnsStatus = true := by decide

/-- WriteRegisterSendsThePair, ShutdownWritesTheInvertedBoolean, IntensityWritesTheLevel, DisptestWritesTheBoolean, SetrowOverwritesTheRow,
SetledChangesOneBitAndSendsTheRow: the last device, the last operand values, both answers. -/
theorem witness_one_write : (block [rows 0xFF, rows 0x24] [.failure]).Inv ∧ pair8.Inv ∧ pair8.bound = true ∧
    (block [rows 0xFF, rows 0x24] [.failure]).bound = true ∧ 1 < pair8.params.chainLength ∧ (0x0F ≤ 0x0F ∧ 15 ≤ 15 ∧ 7 ≤ 7) ∧
    pair8.answerAt 0 = some true ∧ (block [rows 0xFF, rows 0x24] [.failure]).answerAt 0 = some false :=
  ⟨two_inv _, pair8_inv, rfl, rfl, by decide, by decide, rfl, rfl⟩

/-- ControlOperationsLeaveTheBlockAlone. -/
theorem witness_control : Instr.intensity 1 15 ∈ [Instr.shutdown 1 true, .intensity 1 15, .disptest 1 true] ∧
    (∃ t, exec (.intensity 1 15) pair8 = .next t) ∧
    ∃ t, exec (.intensity 2 15) pair8 = .next t ∧ t.result = some .outOfBounds := ⟨by decide, ⟨_, rfl⟩, _, rfl, rfl⟩

/-- ClearStopsAtTheFirstFailure, SetcolStopsAtTheFirstFailure: failure at the first step and at the last. -/
theorem witness_failing_step : (block [rows 0xFF, rows 0x24] [.failure]).Inv ∧ (block [rows 0xFF, rows 0x24] [.failure]).answerAt 0 = some false ∧
    (block [rows 0xFF, rows 0x24] (oks 7 ++ [.failure])).Inv ∧ (block [rows 0xFF, rows 0x24] (oks 7 ++ [.failure])).bound = true ∧
    1 < (block [rows 0xFF, rows 0x24] (oks 7 ++ [.failure])).params.chainLength ∧
    (∀ k, k < 7 → (block [rows 0xFF, rows 0x24] (oks 7 ++ [.failure])).answerAt k = some true) ∧
    (block [rows 0xFF, rows 0x24] (oks 7 ++ [.failure])).answerAt 7 = some false :=
  ⟨two_inv _, rfl, two_inv _, rfl, by decide, by decide, rfl⟩

/-- SetcolBehavesAsEightSetleds. -/
theorem witness_default_order : pair8.params.setcolMsbIsRow0 = true ∧ pair8.params.setcolAscending = true := by decide

/-- RepeatedOperationsSendTheSameTransaction. -/
theorem witness_repeated : ∃ t u, exec (.setled 1 3 5 true) pair8 = .next t ∧ exec (.setled 1 3 5 true) t = .next u := ⟨_, _, rfl, rfl⟩

/-- SetledsCommuteOnTheFrame: two bits of one row, and two rows. -/
theorem witness_commute : (∃ t t' u u', exec (.setled 1 3 5 true) pair8 = .next t ∧ exec (.setled 1 3 2 false) t = .next t' ∧
      exec (.setled 1 3 2 false) pair8 = .next u ∧ exec (.setled 1 3 5 true) u = .next u') ∧
    (∃ t t' u u', exec (.setled 1 3 5 true) pair8 = .next t ∧ exec (.setled 1 4 5 false) t = .next t' ∧
      exec (.setled 1 4 5 false) pair8 = .next u ∧ exec (.setled 1 3 5 true) u = .next u') :=
  ⟨⟨_, _, _, _, rfl, rfl, rfl, rfl⟩, _, _, _, _, rfl, rfl, rfl, rfl⟩

/-- LatchedPairsWriteTheirRegister: the first and the last pair, in the last slot. -/
theorem witness_latched : (0x01, Instr.digit0) ∈ writingPairs ∧ (0x0F, Instr.displayTestReg) ∈ writingPairs ∧ pair8.Inv ∧
    1 < pair8.params.chainLength := ⟨by simp [writingPairs], by simp [writingPairs], pair8_inv, by decide⟩

/-- NoopPairIsIgnored, ReservedPairsTouchOnlyTheirChip. -/
theorem witness_slot : 1 < pair8.params.chainLength ∧ Instr.reserved0d 1 0x55 ∈ [Instr.reserved0d 1 0x55, .reserved0e 1 0x55] ∧
    Instr.reserved0e 1 0x55 ∈ [Instr.reserved0d 1 0x55, .reserved0e 1 0x55] := by decide

/-- PairsBeyondTheChainFault. -/
theorem witness_beyond : (Instr.noop 2 0).returnsStatus = false ∧ (Instr.noop 2 0).device = some 2 ∧ pair8.params.chainLength ≤ 2 := by decide

/-- AcceptedWriteIsTheTargetsLatch. -/
theorem witness_accepted : pair8.Inv ∧ 1 < pair8.params.chainLength ∧ 0x0F ≤ 0x0F ∧ pair8.answerAt 0 = some true ∧
    (∃ t, exec (.wrreg 1 0x0F 0x01) pair8 = .next t) ∧
    decode (.pair (BitVec.ofNat 8 1) (BitVec.ofNat 8 0x0F ++ 0x01#8)) = .ok (.displayTestReg 1 0x01) :=
  ⟨pair8_inv, by decide, by decide, rfl, ⟨_, rfl⟩, by decide⟩

/-- OkFrameOperationsBringTheirRowsIntoSync, OkCommandsKeepTheMirror. -/
theorem witness_ok : pair8.Inv ∧ (Instr.clear 1).isCommand = true ∧ (∀ b, Instr.clear 1 ≠ .init b) ∧
    (∃ t, exec (.clear 1) pair8 = .next t ∧ t.result = some .ok) ∧ (Instr.clear 1).mayWrite 1 7 ∧
    (block [rows 0xEE, rows 0x24] (oks 8)).InSync 0 7 :=
  ⟨pair8_inv, rfl, by simp, ⟨_, rfl, rfl⟩, rfl, rfl⟩

/-- ClearingEveryDeviceMirrorsTheDisplay. -/
theorem witness_clear_all : (block [rows 0xFF, rows 0x24] (oks 16)).Inv ∧
    ∃ t, runWhileOk ((List.range (block [rows 0xFF, rows 0x24] (oks 16)).params.chainLength).map .clear)
      (block [rows 0xFF, rows 0x24] (oks 16)) = .next t ∧ t.result = some .ok := ⟨two_inv _, _, rfl, rfl⟩

/-- RowsACommandDoesNotWriteStayAsTheyWere: a failed command, a row in sync of the same device and one of another device. -/
theorem witness_row_not_written : (block [rows 0xEE, rows 0xEE] [.failure]).Inv ∧ (Instr.setrow 1 3 0x55).isCommand = true ∧
    (∃ t, exec (.setrow 1 3 0x55) (block [rows 0xEE, rows 0xEE] [.failure]) = .next t ∧ t.result = some .transportError) ∧
    ¬ (Instr.setrow 1 3 0x55).mayWrite 1 7 ∧ ¬ (Instr.setrow 1 3 0x55).mayWrite 0 3 ∧
    (block [rows 0xEE, rows 0xEE] [.failure]).InSync 1 7 ∧ (block [rows 0xEE, rows 0xEE] [.failure]).InSync 0 3 :=
  ⟨block_inv (by decide) (by decide), rfl, ⟨_, rfl, rfl⟩, by simp [Instr.mayWrite], by simp [Instr.mayWrite], rfl, rfl⟩

/-- SetrowOfTheFrameByteResynchronisesItsRow: the last row of the last device. -/
theorem witness_resync : pair8.Inv ∧ pair8.bound = true ∧ 7 ≤ 7 ∧ pair8.frameByte 1 7 = some 0x24 ∧ pair8.answerAt 0 = some true :=
  ⟨pair8_inv, rfl, by decide, rfl, rfl⟩

/-- TheSameCommandAgainResynchronisesItsRows: SETCOL that fails at its third step, again with success, and with success at once. -/
theorem witness_again : (block [rows 0xFF, rows 0x24] (oks 2 ++ [.failure] ++ oks 8)).Inv ∧
    Instr.setcol 1 7 0xC1 ∈ [Instr.setled 1 0 7 true, .setrow 1 0 0xC1, .clear 1, .setcol 1 7 0xC1] ∧
    (∃ t u, exec (.setcol 1 7 0xC1) (block [rows 0xFF, rows 0x24] (oks 2 ++ [.failure] ++ oks 8)) = .next t ∧
      t.result = some .transportError ∧ exec (.setcol 1 7 0xC1) t = .next u ∧ u.result = some .ok) ∧
    ∃ v, exec (.setcol 1 7 0xC1) { block [rows 0xFF, rows 0x24] (oks 2 ++ [.failure] ++ oks 8) with replies := oks 8 } = .next v ∧
      v.result = some .ok :=
  ⟨two_inv _, by simp, ⟨_, _, rfl, rfl, rfl, rfl⟩, _, rfl, rfl⟩

end Sys2Proof.Tests
end

section
/-! SUPPORT. What every instruction, every step and every run keeps: the configuration, the lifecycle, the calls made, the shape of the state. -/

namespace Sys2Proof.Machine

variable {i : Instr} {s t u : State} {addr reg d r : Nat} {value v : Byte} {ok : Bool} {st : Status} {f : Nat → Byte → Byte}
  {rows : List Nat}

/-! ### One instruction -/

theorem Effect.params (h : Effect i s t) : t.params = s.params := by
  cases h with
  | initialised | noTransport | outOfBounds | wrote | latched => rfl
  | rows _ _ _ _ _ hw => exact hw.params

theorem Effect.requests (h : Effect i s t) : t.requests = s.requests := by
  cases h with
  | initialised | noTransport | outOfBounds | wrote | latched => rfl
  | rows _ _ _ _ _ hw => exact hw.requests

/-- Only a successful INIT changes `bound`, and it sets it (10_state.md R23). -/
theorem Effect.bound_of_bound (h : Effect i s t) (hb : s.bound = true) : t.bound = true := by
  cases h with
  | initialised => rfl
  | noTransport | outOfBounds | wrote | latched => exact hb
  | rows _ _ _ _ _ hw => exact hw.bound.trans hb

theorem Effect.calls_extended (h : Effect i s t) : s.calls <+: t.calls := by
  cases h with
  | initialised | noTransport | outOfBounds | latched => exact ⟨[], List.append_nil _⟩
  | wrote => exact ⟨_, rfl⟩
  | rows _ _ _ _ _ hw =>
    obtain ⟨_, new, _, hnew, _⟩ := hw.calls
    exact ⟨new, hnew.symm⟩

/-! ### The shape of the state -/

theorem State.Inv.endCommand (h : s.Inv) : (endCommand st s).Inv := ⟨h.params, h.frame, h.chips, h.calls⟩

theorem State.Inv.setFrameByte (h : s.Inv) : (s.setFrameByte d r v).Inv :=
  ⟨h.params, setFrameByte_frame_length.trans h.frame, h.chips, h.calls⟩

/-- A transaction of the primitive adds one targeted write to the calls. -/
theorem State.Inv.sent (h : s.Inv) (ha : addr < s.params.chainLength) (hr : reg ≤ 0x0F) :
    (s.sent addr (transaction s.params.chainLength addr reg value) ok).Inv where
  params := h.params
  frame := h.frame
  chips := chipsAfter_length.trans h.chips
  calls c hc := by
    rcases List.mem_append.mp hc with hold | hnew
    · exact h.calls c hold
    · rw [List.mem_singleton.mp hnew]
      exact ⟨addr, reg, value, ha, hr, transaction_isTargetedWrite ha⟩

theorem State.Inv.wroteRow (h : s.Inv) (ha : addr < s.params.chainLength) (hr : r ≤ 7) : (s.wroteRow addr r v ok).Inv :=
  h.setFrameByte.sent ha (by simp only [digitRegister, regDigit0]; omega)

theorem RowsWritten.inv (h : RowsWritten addr f rows s st t) (ha : addr < s.params.chainLength) (hr : ∀ r ∈ rows, r ≤ 7)
    (hs : s.Inv) : t.Inv := by
  induction h with
  | done => exact hs
  | failed => exact hs.wroteRow ha (hr _ (by simp))
  | more _ _ _ ih => exact ih ha (fun q hq => hr q (by simp [hq])) (hs.wroteRow ha (hr _ (by simp)))

theorem State.Inv.latchedPair (h : s.Inv) : (s.latchedPair d reg value).Inv :=
  ⟨h.params, h.frame, (List.length_modify ..).trans h.chips, h.calls⟩

theorem Effect.inv (h : Effect i s t) (hs : s.Inv) : t.Inv := by
  cases h with
  | initialised => exact ⟨hs.params, zeroFrame_length _, hs.chips, hs.calls⟩
  | noTransport | outOfBounds => exact hs.endCommand
  | wrote _ _ _ ha hr _ => exact (hs.sent ha hr).endCommand
  | rows _ _ _ ha hr hw => exact (hw.inv ha hr hs).endCommand
  | latched => exact hs.latchedPair

/-! ### Steps and runs -/

/-- What a later state has kept of an earlier one. -/
structure Keeps (s t : State) : Prop where
  params : t.params = s.params
  bound : s.bound = true → t.bound = true
  calls : s.calls <+: t.calls
  inv : s.Inv → t.Inv

theorem Keeps.refl (s : State) : Keeps s s := ⟨rfl, id, ⟨[], List.append_nil _⟩, id⟩

theorem Keeps.trans (h : Keeps s t) (h' : Keeps t u) : Keeps s u :=
  ⟨h'.params.trans h.params, h'.bound ∘ h.bound, h.calls.trans h'.calls, h'.inv ∘ h.inv⟩

theorem Effect.keeps (h : Effect i s t) : Keeps s t := ⟨h.params, h.bound_of_bound, h.calls_extended, h.inv⟩

/-- Everything a step that goes on can be: idle, or the meaning of the request it took (40_init_and_register_write.md R102). -/
theorem step_cases (h : step s = .next t) :
    (s.requests = [] ∧ t = s) ∨
    ∃ q rest i, s.requests = q :: rest ∧ decode q = .ok i ∧ Effect i { s with requests := rest } t := by
  cases hq : s.requests with
  | nil =>
    simp only [step, takeRequest, hq] at h
    cases h
    exact .inl ⟨rfl, rfl⟩
  | cons q rest =>
    simp only [step, takeRequest, hq] at h
    cases hd : decode q with
    | ok i =>
      rw [hd] at h
      exact .inr ⟨q, rest, i, rfl, hd, exec_effect h⟩
    | error e =>
      rw [hd] at h
      cases e <;> cases h

theorem step_keeps (h : step s = .next t) : Keeps s t := by
  obtain ⟨_, rfl⟩ | ⟨_, rest, _, _, _, he⟩ := step_cases h
  · exact .refl t
  · have htaken : Keeps s { s with requests := rest } :=
      ⟨rfl, id, ⟨[], List.append_nil _⟩, fun hs => ⟨hs.params, hs.frame, hs.chips, hs.calls⟩⟩
    exact htaken.trans he.keeps

/-- A longer run that goes on is a step that goes on and the rest of the run. -/
theorem run_succ_next {k : Nat} (h : Sys2Proof.core.run (k + 1) s = .next t) :
    ∃ u, step s = .next u ∧ Sys2Proof.core.run k u = .next t := by
  simp only [Host.Core.run] at h
  split at h
  next u hu => exact ⟨u, hu, h⟩
  next => cases h
  next => cases h

theorem run_keeps {k : Nat} (h : Sys2Proof.core.run k s = .next t) : Keeps s t := by
  induction k generalizing s with
  | zero => cases h; exact .refl _
  | succ k ih =>
    obtain ⟨u, hu, hrun⟩ := run_succ_next h
    exact (step_keeps hu).trans (ih hrun)

/-! ### The no-op pair -/

/-- A latched no-op leaves the model's counter of free values one higher, and nothing else (60_exceptions.md R158). -/
theorem latchedPair_noop : s.latchedPair d regNoop value = { s with draws := s.draws + 1 } := by
  have hid : latchPair s.draws d regNoop value = id := funext fun _ => latchPair_noop
  simp [State.latchedPair, hid]

/-! ### The obligations -/

/-- Settles O15: the cases of `Effect` change neither field. -/
theorem configurationAndRequestsNeverChange : Obligations.ConfigurationAndRequestsNeverChange :=
  fun _ _ _ h => ⟨(exec_effect h).params, (exec_effect h).requests⟩

/-- Settles O19, by induction on the number of steps: `Keeps` is reflexive and transitive, and every step keeps. -/
theorem runsKeepConfigurationLifecycleAndHistory : Obligations.RunsKeepConfigurationLifecycleAndHistory := by
  intro k s t h
  obtain ⟨hparams, hbound, ⟨new, hnew⟩, hinv⟩ := run_keeps h
  exact ⟨hparams, hbound, ⟨new, hnew.symm⟩, hinv⟩

/-- Settles O50: the chip's latch of a no-op is the identity. -/
theorem noopPairIsIgnored : Obligations.NoopPairIsIgnored := by
  intro s slot value hs
  have hrun : exec (.noop slot value) s = .next { s with draws := s.draws + 1 } := by
    rw [exec_latched rfl hs, latchedPair_noop]
  exact ⟨_, hrun, rfl, rfl⟩

end Sys2Proof.Machine
end

section
/-! SUPPORT. The wire pairs as one operation, and who writes which frame bytes (10_state.md R22, R33). -/

namespace Sys2Proof.Machine

variable {i : Instr} {s t : State} {p : Params} {addr slot reg d r n : Nat} {value : Byte} {f : Nat → Byte → Byte} {rows : List Nat}

/-! ### The wire pairs -/

/-- An instruction that returns no status is a wire pair in the slot it names (20_memory.md R51). -/
theorem latched_of_not_returnsStatus (h : i.returnsStatus = false) :
    ∃ slot reg value, i.device = some slot ∧ i.latched = some (slot, reg, value) := by
  cases i with
  | init | shutdown | intensity | disptest | clear | setled | setrow | setcol | wrreg => cases h
  | noop | digit0 | digit1 | digit2 | digit3 | digit4 | digit5 | digit6 | digit7 | decodeMode | intensityReg | scanLimit | shutdownReg
  | reserved0d | reserved0e | displayTestReg => exact ⟨_, _, _, rfl, rfl⟩

/-- Every wire pair means the same operation, in the chain or beyond it. -/
theorem exec_eq_latchAt (h : i.latched = some (slot, reg, value)) : exec i s = latchAt slot reg value s := by
  cases i <;> cases h <;> rfl

theorem latchAt_noSuchSlot (h : s.params.chainLength ≤ slot) : latchAt slot reg value s = .fault .noSuchSlot :=
  if_pos ((noDevice_iff s slot).mpr h)

/-! ### The frame -/

/-- Every existing byte of a zeroed frame is zero (R33). -/
theorem frameByte_zeroFrame (hs : s.frame = zeroFrame n) (hd : d < n) (hr : r ≤ 7) : s.frameByte d r = some 0x00 := by
  have hr' : r < 8 := Nat.lt_succ_of_le hr
  simp [State.frameByte, hs, zeroFrame, hd, hr']

/-- The table of frame writers gives a frame operation every row it writes (R22). -/
theorem mayWrite_of_rowWrites (h : i.rowWrites p = some (addr, f, rows)) (hr : r ∈ rows) : i.mayWrite addr r := by
  cases i <;> cases h
  case clear | setcol => exact rfl
  case setled | setrow => exact ⟨rfl, List.mem_singleton.mp hr⟩

theorem Effect.frameByte_of_not_mayWrite (h : Effect i s t) (hw : ¬ i.mayWrite d r) : t.frameByte d r = s.frameByte d r := by
  cases h with
  | initialised hi => exact absurd (by rw [hi]; exact rfl) hw
  | noTransport | outOfBounds | wrote | latched => rfl
  | @rows addr _ rows _ _ _ _ hrows _ _ hwritten =>
    have hother : d ≠ addr ∨ r ∉ rows := by
      by_contra hboth
      obtain ⟨rfl, hr⟩ : d = addr ∧ r ∈ rows := by tauto
      exact hw (mayWrite_of_rowWrites hrows hr)
    exact hwritten.frameByte_other hother

/-! ### The obligations -/

/-- Settles O18: every step keeps what `Keeps` lists, the shape of the state among it. -/
theorem everyStepKeepsTheInvariant : Obligations.EveryStepKeepsTheInvariant :=
  fun _ _ hs h => (step_keeps h).inv hs

/-- Settles O37, by the cases of `Effect`: only INIT and the written rows change the frame. -/
theorem frameChangesOnlyWhereTheOperationWrites : Obligations.FrameChangesOnlyWhereTheOperationWrites :=
  fun _ _ _ h _ _ hw => (exec_effect h).frameByte_of_not_mayWrite hw

/-- Settles O12: INIT replaces the frame by the zeroed one. -/
theorem initZeroesTheFrameAndBinds : Obligations.InitZeroesTheFrameAndBinds :=
  fun _ => ⟨_, rfl, fun _ _ hd hr => frameByte_zeroFrame rfl hd hr, zeroFrame_length _, rfl, rfl⟩

/-- Settles O17: frame and chips are made device by device, and no call has been made. -/
theorem powerOnMeetsTheInvariant : Obligations.PowerOnMeetsTheInvariant := fun p hp =>
  { params := hp
    frame := by simp [State.powerOn]
    chips := by simp [State.powerOn]
    calls := fun _ hc => absurd hc List.not_mem_nil }

/-- Settles O52: every wire pair is `latchAt` in the slot it names, which faults beyond the chain. -/
theorem pairsBeyondTheChainFault : Obligations.PairsBeyondTheChainFault := by
  intro i s slot hi hdev hslot
  obtain ⟨slot', reg, value, hdev', hlatch⟩ := latched_of_not_returnsStatus hi
  obtain rfl : slot = slot' := Option.some.inj (hdev.symm.trans hdev')
  rw [exec_eq_latchAt hlatch, latchAt_noSuchSlot hslot]

end Sys2Proof.Machine
end

section
/-! SUPPORT. What the block does not read. A relation of states is `Unread` when related states agree on everything the operations look
at and the operations keep it; related states then come to related outcomes under every instruction that returns a status. The earlier
status (10_state.md R27) and the chips (R32) are two such relations. -/

namespace Sys2Proof.Machine

/-- A relation `R` of states that no operation inside a command tells apart, and the relation `Q` it leaves of the outcomes. -/
structure Unread (R : State → State → Prop)
    (Q : Host.Outcome State Fault Refusal → Host.Outcome State Fault Refusal → Prop) : Prop where
  params {s u : State} : R s u → u.params = s.params
  frame {s u : State} : R s u → u.frame = s.frame
  bound {s u : State} : R s u → u.bound = s.bound
  answerAt {s u : State} : R s u → u.answerAt 0 = s.answerAt 0
  setFrame {s u : State} (frame : List Rows) : R s u → R { s with frame := frame } { u with frame := frame }
  setBound {s u : State} (bound : Bool) : R s u → R { s with bound := bound } { u with bound := bound }
  sent {s u : State} (addr : Nat) (buf : List Byte) (ok : Bool) : R s u → R (s.sent addr buf ok) (u.sent addr buf ok)
  ended {s u : State} (st : Status) : R s u → Q (.next (endCommand st s)) (.next (endCommand st u))
  fault (e : Fault) : Q (.fault e) (.fault e)

/-- Two operations that come to the same status, or the same stop, and to related states. -/
inductive CallsMatch (R : State → State → Prop) : Call → Call → Prop where
  | ok {st : Status} {s u : State} (h : R s u) : CallsMatch R (.ok (st, s)) (.ok (st, u))
  | error (e : Fault) : CallsMatch R (.error e) (.error e)

/-- The two states differ in the status on the result port at most. -/
def SameButResult (s u : State) : Prop := ∃ result, u = { s with result := result }

/-- The two states differ in the chips' registers at most. -/
def SameStateButChips (s u : State) : Prop := ∃ chips, u = { s with chips := chips }

theorem sameButResult_unread : Unread SameButResult Eq where
  params := by rintro _ _ ⟨_, rfl⟩; rfl
  frame := by rintro _ _ ⟨_, rfl⟩; rfl
  bound := by rintro _ _ ⟨_, rfl⟩; rfl
  answerAt := by rintro _ _ ⟨_, rfl⟩; rfl
  setFrame := by rintro _ _ _ ⟨_, rfl⟩; exact ⟨_, rfl⟩
  setBound := by rintro _ _ _ ⟨_, rfl⟩; exact ⟨_, rfl⟩
  sent := by rintro _ _ _ _ _ ⟨_, rfl⟩; exact ⟨_, rfl⟩
  ended := by rintro _ _ _ ⟨_, rfl⟩; rfl
  fault _ := rfl

theorem sameStateButChips_unread : Unread SameStateButChips SameButChips where
  params := by rintro _ _ ⟨_, rfl⟩; rfl
  frame := by rintro _ _ ⟨_, rfl⟩; rfl
  bound := by rintro _ _ ⟨_, rfl⟩; rfl
  answerAt := by rintro _ _ ⟨_, rfl⟩; rfl
  setFrame := by rintro _ _ _ ⟨_, rfl⟩; exact ⟨_, rfl⟩
  setBound := by rintro _ _ _ ⟨_, rfl⟩; exact ⟨_, rfl⟩
  sent := by rintro _ _ _ _ _ ⟨_, rfl⟩; exact ⟨_, rfl⟩
  ended := by rintro _ _ _ ⟨_, rfl⟩; exact ⟨_, rfl⟩
  fault _ := rfl

section Operations

variable {R : State → State → Prop} {Q : Host.Outcome State Fault Refusal → Host.Outcome State Fault Refusal → Prop}
  {i : Instr} {s u : State} {addr reg r : Nat} {value : Byte} {rows : List Nat} {a b : Call} {run : State → Call}

theorem CallsMatch.respond (hR : Unread R Q) (h : CallsMatch R a b) : Q (respond a) (respond b) := by
  cases h with
  | ok h => exact hR.ended _ h
  | error e => exact hR.fault e

/-- An operand check that comes out the same in both states. -/
theorem CallsMatch.unless {c c' : Bool} (hc : c' = c) (h : R s u) (hab : CallsMatch R a b) :
    CallsMatch R (if c then .ok (.outOfBounds, s) else a) (if c' then .ok (.outOfBounds, u) else b) := by
  subst hc
  cases c'
  · exact hab
  · exact .ok h

theorem Unread.noDevice (hR : Unread R Q) (h : R s u) : u.noDevice addr = s.noDevice addr := by
  rw [State.noDevice, State.noDevice, hR.params h]

theorem Unread.whenBound (hR : Unread R Q) (h : R s u) (hrun : CallsMatch R (run s) (run u)) :
    Q (whenBound s run) (whenBound u run) := by
  rw [Machine.whenBound, Machine.whenBound, hR.bound h]
  cases s.bound
  · exact hR.fault _
  · exact hrun.respond hR

theorem Unread.writeRegister (hR : Unread R Q) (h : R s u) :
    CallsMatch R (writeRegister addr reg value s) (writeRegister addr reg value u) := by
  have hp := hR.params h
  by_cases hout : s.params.chainLength ≤ addr ∨ 0x0F < reg
  · rw [writeRegister_outOfBounds hout, writeRegister_outOfBounds (by rwa [hp])]
    exact .ok h
  · obtain ⟨ha, hr⟩ : addr < s.params.chainLength ∧ reg ≤ 0x0F := by omega
    have ha' : addr < u.params.chainLength := by rwa [hp]
    cases hans : s.answerAt 0 with
    | none =>
      rw [writeRegister_silent ha hr hans, writeRegister_silent ha' hr ((hR.answerAt h).trans hans)]
      exact .error _
    | some ok =>
      rw [writeRegister_answered ha hr hans, writeRegister_answered ha' hr ((hR.answerAt h).trans hans), hp]
      exact .ok (hR.sent _ _ _ h)

theorem Unread.setFrameByte (hR : Unread R Q) (h : R s u) : R (s.setFrameByte addr r value) (u.setFrameByte addr r value) := by
  rw [State.setFrameByte, State.setFrameByte, hR.frame h]
  exact hR.setFrame _ h

theorem Unread.writeThrough {g : Byte → Byte} (hR : Unread R Q) (h : R s u) :
    CallsMatch R (writeThrough addr r g s) (writeThrough addr r g u) := by
  rw [Machine.writeThrough, Machine.writeThrough, updateRow, updateRow, frameByte_congr (hR.frame h)]
  cases s.frameByte addr r with
  | none => exact .error _
  | some old => exact hR.writeRegister (hR.setFrameByte h)

theorem Unread.writeRows {f : Nat → Byte → Byte} (hR : Unread R Q) (h : R s u) :
    CallsMatch R (writeRows addr f rows s) (writeRows addr f rows u) := by
  induction rows generalizing s u with
  | nil => exact .ok h
  | cons r rest ih =>
    rw [Machine.writeRows, Machine.writeRows]
    have hstep := hR.writeThrough (addr := addr) (r := r) (g := f r) h
    generalize Machine.writeThrough addr r (f r) s = a, Machine.writeThrough addr r (f r) u = b at hstep ⊢
    cases hstep with
    | ok h' =>
      dsimp only
      split
      · exact ih h'
      · exact .ok h'
    | error e => exact .error e

/-- Related states come to related outcomes under every instruction that returns a status. -/
theorem Unread.exec (hR : Unread R Q) (h : R s u) (hi : i.returnsStatus = true) : Q (exec i s) (exec i u) := by
  cases i with
  | init t =>
    cases t
    · exact hR.ended _ h
    · have hzero : zeroFrame u.params.chainLength = zeroFrame s.params.chainLength := by rw [hR.params h]
      simp only [Machine.exec, execInit, ↓reduceIte, hzero]
      exact hR.ended .ok (hR.setBound true (hR.setFrame (zeroFrame s.params.chainLength) h))
  | shutdown | disptest => exact hR.whenBound h (hR.writeRegister h)
  | intensity =>
    simp only [Machine.exec, execIntensity]
    refine hR.whenBound h ?_
    split
    · exact .ok h
    · exact hR.writeRegister h
  | clear =>
    simp only [Machine.exec, execClear]
    exact hR.whenBound h (.unless (hR.noDevice h) h (hR.writeRows h))
  | setled =>
    simp only [Machine.exec, execSetled]
    exact hR.whenBound h (.unless (by rw [hR.noDevice h]) h (hR.writeThrough h))
  | setrow =>
    simp only [Machine.exec, execSetrow]
    exact hR.whenBound h (.unless (by rw [hR.noDevice h]) h (hR.writeThrough h))
  | setcol =>
    simp only [Machine.exec, execSetcol]
    refine hR.whenBound h (.unless (by rw [hR.noDevice h]) h ?_)
    rw [hR.params h]
    exact hR.writeRows h
  | wrreg => exact (hR.writeRegister h).respond hR
  | noop | digit0 | digit1 | digit2 | digit3 | digit4 | digit5 | digit6 | digit7 | decodeMode | intensityReg | scanLimit | shutdownReg
  | reserved0d | reserved0e | displayTestReg => cases hi

end Operations

/-! ### The chips -/

variable {i : Instr} {s u : State} {slot reg : Nat} {value : Byte}

/-- A chip's latch reads the block's configuration and the model's counter, and writes nothing but chips and that counter. -/
theorem latchAt_sameButChips (h : SameStateButChips s u) : SameButChips (latchAt slot reg value s) (latchAt slot reg value u) := by
  rw [latchAt, latchAt, sameStateButChips_unread.noDevice h]
  obtain ⟨chips, rfl⟩ := h
  split
  · rfl
  · exact ⟨_, rfl⟩

theorem exec_sameButChips (h : SameStateButChips s u) : SameButChips (exec i s) (exec i u) := by
  cases hi : i.returnsStatus with
  | true => exact sameStateButChips_unread.exec h hi
  | false =>
    obtain ⟨slot, reg, value, _, hlatch⟩ := latched_of_not_returnsStatus hi
    rw [exec_eq_latchAt hlatch, exec_eq_latchAt hlatch]
    exact latchAt_sameButChips h

theorem reject_sameButChips (e : Reject) : SameButChips (reject e) (reject e) := by
  cases e <;> rfl

/-- A step takes its request from the port, and then it is one instruction or a rejection. -/
theorem step_sameButChips (chips : List ChipRegs) : SameButChips (step s) (step { s with chips := chips }) := by
  cases hq : s.requests with
  | nil =>
    simp only [step, takeRequest, hq]
    exact ⟨chips, by rw [hq]⟩
  | cons q rest =>
    simp only [step, takeRequest, hq]
    cases decode q with
    | ok i => exact exec_sameButChips ⟨chips, rfl⟩
    | error e => exact reject_sameButChips e

/-! ### The obligations -/

/-- Settles O48: differing in the chips is `Unread` by the commands, and a chip's latch keeps it. -/
theorem chipsAreNeverRead : Obligations.ChipsAreNeverRead :=
  ⟨fun _ _ chips => exec_sameButChips ⟨chips, rfl⟩, fun _ chips => step_sameButChips chips⟩

/-- Settles O31: differing in the earlier status is `Unread`, and the status a command returns overwrites it. -/
theorem earlierStatusHasNoEffect : Obligations.EarlierStatusHasNoEffect :=
  fun _ _ earlier hi => (sameButResult_unread.exec ⟨earlier, rfl⟩ hi).symm

end Sys2Proof.Machine
end

section
/-! SUPPORT. Transactions: which device an instruction's calls and chip changes belong to, what the calls do not depend on, and what an
operation sends when it is issued twice (20_memory.md R40 to R48). -/

namespace Sys2Proof.Machine

variable {i : Instr} {s t u : State} {p : Params} {addr slot reg d r : Nat} {value v : Byte} {ok : Bool} {st : Status} {buf : List Byte}
  {f : Nat → Byte → Byte} {rows : List Nat}

/-! ### The transport's call -/

/-- An answer that comes takes the next reply and one draw (R44). -/
theorem takeAnswer_next (h : takeAnswer s = some (ok, t)) : t = { s with replies := s.replies.tail, draws := s.draws + 1 } := by
  obtain ⟨params, frame, bound, result, calls, chips, requests, replies, draws⟩ := s
  cases replies with
  | nil => cases h; rfl
  | cons q rest => cases q <;> cases h <;> rfl

/-- Everything a transport call that returns can do (R15, R44). -/
theorem transport_next (h : transport buf s = .ok (ok, t)) :
    t = { s with calls := s.calls ++ [⟨buf, ok⟩], replies := s.replies.tail, draws := s.draws + 1 } := by
  unfold transport at h
  split at h
  next hanswer =>
    cases h
    rw [takeAnswer_next hanswer]
  next => cases h

/-! ### The device an instruction names -/

theorem device_of_registerWrite (h : i.registerWrite = some (addr, reg, value)) : i.device = some addr := by
  cases i <;> cases h <;> rfl

theorem device_of_rowWrites (h : i.rowWrites p = some (addr, f, rows)) : i.device = some addr := by
  cases i <;> cases h <;> rfl

theorem device_of_latched (h : i.latched = some (slot, reg, value)) : i.device = some slot := by
  cases i <;> cases h <;> rfl

/-- A device that an instruction does not name is not the one it names. -/
theorem ne_of_device (h : i.device = some addr) (hd : i.device ≠ some d) : d ≠ addr :=
  fun e => hd (e ▸ h)

/-- A wire pair is no host command (30_encoding.md R86). -/
theorem isCommand_of_latched (h : i.latched = some (slot, reg, value)) : i.isCommand = false := by
  cases i <;> cases h <;> rfl

/-! ### Every call is a targeted write -/

theorem digitRegister_le (hr : r ≤ 7) : digitRegister r ≤ 0x0F := by
  simp only [digitRegister, regDigit0]
  omega

/-- Each call of a composite is the transaction of one of its rows. -/
theorem RowsWritten.calls_transactions (h : RowsWritten addr f rows s st t) :
    ∃ new, t.calls = s.calls ++ new ∧
      ∀ c ∈ new, ∃ r ∈ rows, ∃ v, c.buf = transaction s.params.chainLength addr (digitRegister r) v := by
  induction h with
  | done s => exact ⟨[], by simp, by simp⟩
  | @failed s r rest old _ _ => exact ⟨_, rfl, by simp⟩
  | @more s t st r rest old _ _ _ ih =>
    obtain ⟨new, hcalls, hnew⟩ := ih
    refine ⟨⟨transaction s.params.chainLength addr (digitRegister r) (f r old), true⟩ :: new, by simp [hcalls], fun c hc => ?_⟩
    rcases List.mem_cons.mp hc with rfl | hc
    · exact ⟨r, List.mem_cons_self, _, rfl⟩
    · obtain ⟨q, hq, v, hv⟩ := hnew c hc
      exact ⟨q, List.mem_cons_of_mem r hq, v, hv⟩

/-- No instruction but a register write and a frame operation makes a call, and each of their calls is a targeted write to the device
named (R40 to R42, R45). -/
theorem Effect.calls_targeted (h : Effect i s t) :
    ∃ new, t.calls = s.calls ++ new ∧ ∀ c ∈ new, ∃ addr reg value,
      i.device = some addr ∧ addr < s.params.chainLength ∧ reg ≤ 0x0F ∧ IsTargetedWrite s.params.chainLength addr reg value c.buf := by
  cases h with
  | initialised | noTransport | outOfBounds | latched => exact ⟨[], (List.append_nil _).symm, by simp⟩
  | wrote _ _ hi ha hr _ =>
    refine ⟨_, rfl, fun c hc => ?_⟩
    rw [List.mem_singleton.mp hc]
    exact ⟨_, _, _, device_of_registerWrite hi, ha, hr, transaction_isTargetedWrite ha⟩
  | rows _ _ hi ha hr hw =>
    obtain ⟨new, hcalls, hnew⟩ := hw.calls_transactions
    refine ⟨new, hcalls, fun c hc => ?_⟩
    obtain ⟨r, hmem, v, hbuf⟩ := hnew c hc
    exact ⟨_, _, v, device_of_rowWrites hi, ha, digitRegister_le (hr r hmem), hbuf ▸ transaction_isTargetedWrite ha⟩

/-! ### Chips and digit registers that an instruction leaves alone -/

/-- No-op isolation (R45): only the chip named can change. -/
theorem Effect.chips_other (h : Effect i s t) (hd : i.device ≠ some d) : t.chips[d]? = s.chips[d]? := by
  cases h with
  | initialised | noTransport | outOfBounds => rfl
  | wrote _ _ hi _ _ _ => exact chipsAfter_other (ne_of_device (device_of_registerWrite hi) hd)
  | rows _ _ hi _ _ hw => exact hw.chips_other (ne_of_device (device_of_rowWrites hi) hd)
  | latched hi _ _ => exact List.getElem?_modify_ne _ _ (ne_of_device (device_of_latched hi) hd).symm

/-- A register write to another device or register leaves a digit register as it was, whatever the answer (60_exceptions.md R161 (c)). -/
theorem Wrote.chipByte_row (h : Wrote addr reg value ok s t) (hD : reg ≠ 0x0D) (hE : reg ≠ 0x0E) (hr : r ≤ 7)
    (hne : d ≠ addr ∨ 0x01 + r ≠ reg) : t.chipByte d (0x01 + r) = s.chipByte d (0x01 + r) := by
  by_cases hd : d = addr
  · subst hd
    have hreg : 0x01 + r ≠ reg := hne.resolve_left (not_not_intro rfl)
    cases ok with
    | true => exact h.kept rfl hD hE _ (.inl hreg)
    | false => exact h.certain rfl hD hE r hr hreg
  · simp only [State.chipByte, h.otherChips d hd]

/-- The control operations write none of the digit registers and none of the two addresses not meaningful for writes (30_encoding.md R72). -/
theorem registerWrite_of_isCommand (hc : i.isCommand = true) (h : i.registerWrite = some (addr, reg, value)) :
    0x08 < reg ∧ reg ≠ 0x0D ∧ reg ≠ 0x0E := by
  cases i <;> cases h
  case wrreg => cases hc
  case shutdown | intensity | disptest => decide

theorem other_of_not_mayWrite (h : i.rowWrites p = some (addr, f, rows)) (hw : ¬ i.mayWrite d r) : d ≠ addr ∨ r ∉ rows := by
  by_contra hboth
  obtain ⟨rfl, hr⟩ : d = addr ∧ r ∈ rows := by tauto
  exact hw (mayWrite_of_rowWrites h hr)

/-- A command changes the digit registers of the rows it may write and no others, whatever the status (60_exceptions.md R161 (c)). -/
theorem Effect.chipByte_of_not_mayWrite (h : Effect i s t) (hs : s.Inv) (hc : i.isCommand = true) (hr : r ≤ 7) (hw : ¬ i.mayWrite d r) :
    t.chipByte d (0x01 + r) = s.chipByte d (0x01 + r) := by
  cases h with
  | initialised | noTransport | outOfBounds => rfl
  | wrote _ _ hi ha hreg _ =>
    obtain ⟨hdigit, hD, hE⟩ := registerWrite_of_isCommand hc hi
    exact (sent_wrote ha (hs.chips ▸ ha) hreg).chipByte_row hD hE hr (.inr (by omega))
  | rows _ _ hi ha hrows hwritten => exact hwritten.chipByte_other ha hrows hr (other_of_not_mayWrite hi hw)
  | latched hi _ _ => rw [isCommand_of_latched hi] at hc; cases hc

/-! ### Earlier transactions are not read -/

/-- The two states differ in the calls made before some moment at most: `calls` in the one, `earlier` in the other; the calls since are the
same. -/
def SameSince (calls earlier : List TransportCall) (s u : State) : Prop :=
  ∃ new, s.calls = calls ++ new ∧ u = { s with calls := earlier ++ new }

/-- The same stop, or next states that differ in the calls made before some moment at most. -/
inductive SameOutcomeSince (calls earlier : List TransportCall) :
    Host.Outcome State Fault Refusal → Host.Outcome State Fault Refusal → Prop where
  | next {t u : State} (h : SameSince calls earlier t u) : SameOutcomeSince calls earlier (.next t) (.next u)
  | fault (e : Fault) : SameOutcomeSince calls earlier (.fault e) (.fault e)

variable {earlier calls : List TransportCall}

theorem sameSince_unread (calls earlier : List TransportCall) : Unread (SameSince calls earlier) (SameOutcomeSince calls earlier) where
  params := by rintro _ _ ⟨_, _, rfl⟩; rfl
  frame := by rintro _ _ ⟨_, _, rfl⟩; rfl
  bound := by rintro _ _ ⟨_, _, rfl⟩; rfl
  answerAt := by rintro _ _ ⟨_, _, rfl⟩; rfl
  setFrame := by rintro _ _ _ ⟨new, hnew, rfl⟩; exact ⟨new, hnew, rfl⟩
  setBound := by rintro _ _ _ ⟨new, hnew, rfl⟩; exact ⟨new, hnew, rfl⟩
  sent := by
    rintro _ _ _ buf ok ⟨new, hnew, rfl⟩
    exact ⟨new ++ [⟨buf, ok⟩], by simp [hnew], by simp [State.sent]⟩
  ended := by rintro _ _ _ ⟨new, hnew, rfl⟩; exact .next ⟨new, hnew, rfl⟩
  fault := .fault

/-- A chip's latch makes no call and reads none. -/
theorem latchAt_sameSince (h : SameSince calls earlier s u) :
    SameOutcomeSince calls earlier (latchAt slot reg value s) (latchAt slot reg value u) := by
  rw [latchAt, latchAt, (sameSince_unread calls earlier).noDevice h]
  obtain ⟨new, hnew, rfl⟩ := h
  split
  · exact .fault _
  · exact .next ⟨new, hnew, rfl⟩

theorem exec_sameSince (h : SameSince calls earlier s u) : SameOutcomeSince calls earlier (exec i s) (exec i u) := by
  cases hi : i.returnsStatus with
  | true => exact (sameSince_unread calls earlier).exec h hi
  | false =>
    obtain ⟨slot, reg, value, _, hlatch⟩ := latched_of_not_returnsStatus hi
    rw [exec_eq_latchAt hlatch, exec_eq_latchAt hlatch]
    exact latchAt_sameSince h

/-- An instruction run after other calls makes the same new calls and leaves the same otherwise (R46). -/
theorem exec_with_calls (earlier : List TransportCall) (h : exec i s = .next t) :
    ∃ new, t.calls = s.calls ++ new ∧ exec i { s with calls := earlier } = .next { t with calls := earlier ++ new } := by
  have hsame : SameSince s.calls earlier s { s with calls := earlier } := ⟨[], by simp, by simp⟩
  have hout := exec_sameSince (i := i) hsame
  rw [h] at hout
  generalize exec i { s with calls := earlier } = o at hout ⊢
  cases hout with
  | next ht =>
    obtain ⟨new, hnew, rfl⟩ := ht
    exact ⟨new, hnew, rfl⟩

/-! ### An operation known in advance: one register write, or one row -/

theorem rowWrites_of_registerWrite (h : i.registerWrite = some (addr, reg, value)) : i.rowWrites p = none := by
  cases i <;> cases h <;> rfl

theorem latched_of_registerWrite (h : i.registerWrite = some (addr, reg, value)) : i.latched = none := by
  cases i <;> cases h <;> rfl

theorem latched_of_rowWrites (h : i.rowWrites p = some (addr, f, rows)) : i.latched = none := by
  cases i <;> cases h <;> rfl

/-- A wire pair has no operand that a command answers with `OutOfBounds` (60_exceptions.md R142). -/
theorem not_outOfRange_of_latched {n : Nat} (h : i.latched = some (slot, reg, value)) : ¬ i.outOfRange n := by
  cases i <;> cases h <;> exact not_false

/-- Operands out of range: nothing but the status changes (60_exceptions.md R142). -/
theorem Effect.of_outOfRange (h : Effect i s t) (hout : i.outOfRange s.params.chainLength) : t = endCommand .outOfBounds s := by
  cases h with
  | initialised hi | noTransport hi => subst hi; exact hout.elim
  | outOfBounds => rfl
  | wrote _ hin | rows _ hin => exact absurd hout hin
  | latched hi => exact absurd hout (not_outOfRange_of_latched hi)

theorem Effect.of_registerWrite (h : Effect i s t) (hin : ¬ i.outOfRange s.params.chainLength)
    (hi : i.registerWrite = some (addr, reg, value)) :
    ∃ ok, t = endCommand (statusOfAnswer ok) (s.sent addr (transaction s.params.chainLength addr reg value) ok) := by
  cases h with
  | initialised hinit | noTransport hinit => subst hinit; cases hi
  | outOfBounds _ hout => exact absurd hout hin
  | wrote _ _ hwrite =>
    cases hi.symm.trans hwrite
    exact ⟨_, rfl⟩
  | rows _ _ hrows => cases (rowWrites_of_registerWrite hi).symm.trans hrows
  | latched hlatch => cases (latched_of_registerWrite hi).symm.trans hlatch

/-- A composite of one row is that row's step, answered either way. -/
theorem RowsWritten.singleton (h : RowsWritten addr f [r] s st t) :
    ∃ old ok, s.frameByte addr r = some old ∧ t = s.wroteRow addr r (f r old) ok := by
  cases h with
  | failed hf _ => exact ⟨_, _, hf, rfl⟩
  | more hf _ hrest =>
    cases hrest
    exact ⟨_, _, hf, rfl⟩

theorem Effect.of_rowWrite (h : Effect i s t) (hin : ¬ i.outOfRange s.params.chainLength)
    (hi : i.rowWrites s.params = some (addr, f, [r])) :
    ∃ st old ok, s.frameByte addr r = some old ∧ t = endCommand st (s.wroteRow addr r (f r old) ok) := by
  cases h with
  | initialised hinit | noTransport hinit => subst hinit; cases hi
  | outOfBounds _ hout => exact absurd hout hin
  | wrote _ _ hwrite => cases (rowWrites_of_registerWrite hwrite).symm.trans hi
  | rows _ _ hrows _ _ hw =>
    cases hi.symm.trans hrows
    obtain ⟨old, ok, hold, rfl⟩ := hw.singleton
    exact ⟨_, old, ok, hold, rfl⟩
  | latched hlatch => cases (latched_of_rowWrites hi).symm.trans hlatch

/-! ### The same operation twice -/

/-- The second of two operations, from `t` to `u`, sent the buffers of the first and left the frame of the first. -/
def SentAgain (s t u : State) : Prop :=
  u.frame = t.frame ∧ ∃ new new', t.calls = s.calls ++ new ∧ u.calls = t.calls ++ new' ∧ new'.map (·.buf) = new.map (·.buf)

theorem sentAgain_outOfRange (h : Effect i s t) (h' : Effect i t u) (hout : i.outOfRange s.params.chainLength) : SentAgain s t u := by
  have hout' : i.outOfRange t.params.chainLength := h.params ▸ hout
  rw [h.of_outOfRange hout] at h' hout' ⊢
  rw [h'.of_outOfRange hout']
  exact ⟨rfl, [], [], by simp, by simp, rfl⟩

/-- A register write's buffer is made of its operands and the configuration. -/
theorem sentAgain_of_registerWrite (hi : i.registerWrite = some (addr, reg, value)) (h : Effect i s t) (h' : Effect i t u) :
    SentAgain s t u := by
  by_cases hin : i.outOfRange s.params.chainLength
  · exact sentAgain_outOfRange h h' hin
  obtain ⟨ok, rfl⟩ := h.of_registerWrite hin hi
  obtain ⟨ok', rfl⟩ := h'.of_registerWrite hin hi
  exact ⟨rfl, _, _, rfl, rfl, rfl⟩

/-- Writing a frame byte that is there already leaves the frame alone. -/
theorem setFrameByte_frame_self (h : s.frameByte d r = some v) : (s.setFrameByte d r v).frame = s.frame := by
  unfold State.frameByte at h
  split at h
  next rows hrows =>
    obtain ⟨hd, rfl⟩ := List.getElem?_eq_some_iff.mp hrows
    obtain ⟨hr, rfl⟩ := Vector.getElem?_eq_some_iff.mp h
    have hsame : s.frame[d].setIfInBounds r s.frame[d][r] = s.frame[d] := by
      ext j hj
      by_cases hjr : r = j
      · subst hjr; simp
      · simp [hjr]
    simp [State.setFrameByte, List.modify_eq_set_getElem?, hd, hsame]
  next => cases h

/-- A row's second write sends the byte of the first, since the update is idempotent (42_frame_operations.md R124 (c)). -/
theorem sentAgain_of_rowWrite (hi : ∀ p, i.rowWrites p = some (addr, f, [r])) (hf : ∀ old, f r (f r old) = f r old)
    (h : Effect i s t) (h' : Effect i t u) : SentAgain s t u := by
  by_cases hin : i.outOfRange s.params.chainLength
  · exact sentAgain_outOfRange h h' hin
  obtain ⟨st, old, ok, hold, rfl⟩ := h.of_rowWrite hin (hi _)
  obtain ⟨st', old', ok', hold', rfl⟩ := h'.of_rowWrite hin (hi _)
  have hnew : (s.wroteRow addr r (f r old) ok).frameByte addr r = some (f r old) := wroteRow_frameByte_same hold
  obtain rfl : f r old = old' := Option.some.inj (hnew.symm.trans hold')
  rw [hf]
  exact ⟨setFrameByte_frame_self hnew, _, _, rfl, rfl, rfl⟩

/-- Lighting a lit LED, or darkening a dark one, changes nothing. -/
theorem setColumnBit_idem (y : Nat) (b : Bool) (row : Byte) : setColumnBit y b (setColumnBit y b row) = setColumnBit y b row := by
  cases b
  · simp [setColumnBit, BitVec.and_assoc]
  · simp [setColumnBit, BitVec.or_assoc]

/-! ### The obligations -/

/-- Settles O20: the calls of each case of `Effect`. -/
theorem everyTransactionIsATargetedWrite : Obligations.EveryTransactionIsATargetedWrite :=
  fun _ _ _ h => (exec_effect h).calls_targeted

/-- Settles O21: differing in the calls made earlier is `Unread`, so the run after other calls adds the same new ones. -/
theorem noTransactionDependsOnEarlierOnes : Obligations.NoTransactionDependsOnEarlierOnes := by
  intro i s t h
  obtain ⟨new, hnew, htargeted⟩ := (exec_effect h).calls_targeted
  refine ⟨new, hnew, fun c hc => ?_, fun earlier => ?_⟩
  · obtain ⟨addr, reg, value, _, _, _, hwrite⟩ := htargeted c hc
    exact ⟨addr, reg, value, hwrite⟩
  · obtain ⟨new', hnew', hexec⟩ := exec_with_calls earlier h
    obtain rfl : new = new' := List.append_cancel_left (hnew.symm.trans hnew')
    exact hexec

/-- Settles O24: in each case of `Effect` only the chip of the device named can change. -/
theorem onlyTheAddressedDeviceChanges : Obligations.OnlyTheAddressedDeviceChanges :=
  fun _ _ _ h _ hd => (exec_effect h).chips_other hd

/-- Settles O32: the primitive, answered, is one transaction; `sent_wrote` says what it leaves. -/
theorem writeRegisterSendsThePair : Obligations.WriteRegisterSendsThePair := by
  intro s addr reg value ok hs ha hr hans
  have hrun : exec (.wrreg addr reg value) s =
      .next (endCommand (statusOfAnswer ok) (s.sent addr (transaction s.params.chainLength addr reg value) ok)) := by
    have hin : ¬ (Instr.wrreg addr reg value).outOfRange s.params.chainLength := by
      simp only [Instr.outOfRange]
      omega
    rw [exec_registerWrite (fun hc => by cases hc) hin rfl, valueByte_eq, writeRegister_answered ha hr hans]
    rfl
  exact ⟨_, hrun, sent_wrote ha (hs.chips ▸ ha) hr, rfl, rfl⟩

/-- Settles O46: the control operations are one register write, SETLED and SETROW one row with an idempotent update. -/
theorem repeatedOperationsSendTheSameTransaction : Obligations.RepeatedOperationsSendTheSameTransaction := by
  intro i s t u addr x y value b hi h h'
  replace h := exec_effect h
  replace h' := exec_effect h'
  simp only [List.mem_cons, List.not_mem_nil, or_false] at hi
  obtain rfl | rfl | rfl | rfl | rfl := hi
  · exact sentAgain_of_registerWrite rfl h h'
  · exact sentAgain_of_registerWrite rfl h h'
  · exact sentAgain_of_registerWrite rfl h h'
  · exact sentAgain_of_rowWrite (fun _ => rfl) (setColumnBit_idem y b) h h'
  · exact sentAgain_of_rowWrite (fun _ => rfl) (fun _ => rfl) h h'

/-- Settles O57: a row that a command may not write keeps its frame byte and its digit register, and so their equality. -/
theorem rowsACommandDoesNotWriteStayAsTheyWere : Obligations.RowsACommandDoesNotWriteStayAsTheyWere := by
  intro i s t hs hc h d r hr hw
  have hframe := (exec_effect h).frameByte_of_not_mayWrite hw
  have hchip := (exec_effect h).chipByte_of_not_mayWrite hs hc hr hw
  exact ⟨hframe, hchip, fun hsync => hframe.trans (hsync.trans hchip.symm)⟩

/-- Settles O25: a call that returns changes the calls, the replies and the draws. -/
theorem transportChangesNeitherFrameNorBound : Obligations.TransportChangesNeitherFrameNorBound := by
  intro buf s t ok h
  rw [transport_next h]
  exact ⟨rfl, rfl, rfl⟩

end Sys2Proof.Machine
end

section
/-! SUPPORT. The device control operations, answered: one register write each (41_device_control.md). -/

namespace Sys2Proof.Machine

variable {i : Instr} {s : State} {addr reg n : Nat} {value : Byte} {ok : Bool}

/-- Operands that are in range name a device of the chain and a register (60_exceptions.md R142). -/
theorem inRange_of_registerWrite (h : i.registerWrite = some (addr, reg, value)) (hin : ¬ i.outOfRange n) : addr < n ∧ reg ≤ 0x0F := by
  cases i <;> cases h
  case shutdown | disptest => exact ⟨Nat.not_le.mp hin, by decide⟩
  case intensity => exact ⟨Nat.not_le.mp fun hn => hin (.inl hn), by decide⟩
  case wrreg => exact ⟨Nat.not_le.mp fun hn => hin (.inl hn), Nat.not_lt.mp fun hlast => hin (.inr hlast)⟩

/-- An instruction that is one register write, answered, makes that write and leaves the block's own state alone (R101, R113). -/
theorem exec_registerWrite_wrote (hs : s.Inv) (hb : i.isCommand = true → s.bound = true) (hin : ¬ i.outOfRange s.params.chainLength)
    (h : i.registerWrite = some (addr, reg, value)) (hans : s.answerAt 0 = some ok) :
    ∃ t, exec i s = .next t ∧ Wrote addr reg value ok s t ∧ t.frame = s.frame ∧ t.bound = s.bound := by
  obtain ⟨ha, hr⟩ := inRange_of_registerWrite h hin
  have hrun : exec i s =
      .next (endCommand (statusOfAnswer ok) (s.sent addr (transaction s.params.chainLength addr reg value) ok)) := by
    rw [exec_registerWrite hb hin h, writeRegister_answered ha hr hans]
    rfl
  exact ⟨_, hrun, sent_wrote ha (hs.chips ▸ ha) hr, rfl, rfl⟩

/-- The Boolean is inverted on the way out (R110). -/
theorem shutdownValue_eq_ite (b : Bool) : shutdownValue b = if b then 0x00 else 0x01 := by
  cases b <;> rfl

/-- Settles O33: SHUTDOWN is one register write, of the inverted Boolean. -/
theorem shutdownWritesTheInvertedBoolean : Obligations.ShutdownWritesTheInvertedBoolean := by
  intro s addr b ok hs hb ha hans
  rw [← shutdownValue_eq_ite]
  exact exec_registerWrite_wrote hs (fun _ => hb) (Nat.not_le.mpr ha) rfl hans

/-- Settles O34: INTENSITY is one register write, of the level's byte; a level in range is its byte's number. -/
theorem intensityWritesTheLevel : Obligations.IntensityWritesTheLevel := by
  intro s addr level ok hs hb ha hlevel hans
  have hin : ¬ (Instr.intensity addr level).outOfRange s.params.chainLength :=
    not_or.mpr ⟨Nat.not_le.mpr ha, Nat.not_lt.mpr hlevel⟩
  obtain ⟨t, hrun, hwrote, hframe, hbound⟩ := exec_registerWrite_wrote hs (fun _ => hb) hin rfl hans
  exact ⟨t, levelByte level, hrun, levelByte_toNat (by omega), hwrote, hframe, hbound⟩

/-- Settles O35: DISPTEST is one register write, of the Boolean's byte. -/
theorem disptestWritesTheBoolean : Obligations.DisptestWritesTheBoolean :=
  fun _ _ _ _ hs hb ha hans => exec_registerWrite_wrote hs (fun _ => hb) (Nat.not_le.mpr ha) rfl hans

end Sys2Proof.Machine
end

section
/-! SUPPORT. The frame operations, answered: a frame operation is a composite of rows (SETLED and SETROW of one row), whose calls are accepted
up to a first failure (42_frame_operations.md R120 to R128, 60_exceptions.md R146). -/

namespace Sys2Proof.Machine

variable {i : Instr} {s t : State} {p : Params} {addr d r n k accepted made : Nat} {v old : Byte} {ok : Bool} {st : Status}
  {f : Nat → Byte → Byte} {rows : List Nat}

/-! ### Operands in range, and rows that exist -/

/-- Operands that are in range name a device of the chain and rows of it (60_exceptions.md R142). -/
theorem inRange_of_rowWrites (h : i.rowWrites p = some (addr, f, rows)) (hin : ¬ i.outOfRange n) : addr < n ∧ ∀ r ∈ rows, r ≤ 7 := by
  cases i <;> cases h
  case clear => exact ⟨Nat.not_le.mp hin, fun _ => mem_rowsAscending.mp⟩
  case setcol => exact ⟨Nat.not_le.mp fun hn => hin (.inl hn), fun _ => mem_setcolOrder.mp⟩
  case setled => exact ⟨Nat.not_le.mp fun hn => hin (.inl hn), by simpa using Nat.not_lt.mp fun hx => hin (.inr (.inl hx))⟩
  case setrow => exact ⟨Nat.not_le.mp fun hn => hin (.inl hn), by simpa using Nat.not_lt.mp fun hr => hin (.inr hr)⟩

/-- The frame has every row of every device of the chain (10_state.md R20). -/
theorem State.Inv.frameByte_exists (hs : s.Inv) (hd : d < s.params.chainLength) (hr : r ≤ 7) : ∃ v, s.frameByte d r = some v :=
  Machine.frameByte_exists (hs.frame ▸ hd) (Nat.lt_succ_of_le hr)

/-! ### The bits of a row -/

theorem getLsbD_columnMask (y k : Nat) : (columnMask y).getLsbD k = decide (k = 7 - y) := by
  rw [columnMask, BitVec.getLsbD_shiftLeft, show (1 : Byte) = 1#8 from rfl, BitVec.getLsbD_one]
  grind

/-- Bit `7 - y` is the Boolean, the other bits are the row's (R123). -/
theorem getLsbD_setColumnBit (y k : Nat) (b : Bool) (row : Byte) :
    (setColumnBit y b row).getLsbD k = if k = 7 - y then b else row.getLsbD k := by
  by_cases hk : k = 7 - y
  · cases b <;> simp [setColumnBit, getLsbD_columnMask, -BitVec.getLsbD_eq_getElem, hk]
  · cases b
    · simp only [setColumnBit, Bool.false_eq_true, ↓reduceIte, BitVec.getLsbD_and, BitVec.getLsbD_not, getLsbD_columnMask, hk]
      simpa using BitVec.lt_of_getLsbD
    · simp [setColumnBit, getLsbD_columnMask, hk]

/-! ### One row -/

/-- One row's step writes the row's byte to its digit register (R120). -/
theorem wroteRow_wrote (hs : s.Inv) (ha : addr < s.params.chainLength) (hr : r ≤ 7) :
    Wrote addr (0x01 + r) v ok s (endCommand (statusOfAnswer ok) (s.wroteRow addr r v ok)) :=
  have h := sent_wrote (s := s.setFrameByte addr r v) (value := v) (ok := ok) ha (hs.chips ▸ ha) (digitRegister_le hr)
  ⟨h.params, h.requests, h.replies, h.status, h.call, h.otherChips, h.written, h.kept, h.certain⟩

/-- After an accepted step the digit register holds the row's byte (60_exceptions.md R158). -/
theorem wroteRow_chipByte_same (hs : s.Inv) (ha : addr < s.params.chainLength) (hr : r ≤ 7) :
    (s.wroteRow addr r v true).chipByte addr (0x01 + r) = some v :=
  (wroteRow_wrote hs ha hr).written rfl (by omega) (by omega) (by omega)

/-- A frame operation of one row, answered. -/
theorem exec_rowWrites_one (hb : s.bound = true) (hin : ¬ i.outOfRange s.params.chainLength)
    (hi : i.rowWrites s.params = some (addr, f, [r])) (hold : s.frameByte addr r = some old) (hans : s.answerAt 0 = some ok) :
    exec i s = .next (endCommand (statusOfAnswer ok) (s.wroteRow addr r (f r old) ok)) := by
  obtain ⟨ha, hr⟩ := inRange_of_rowWrites hi hin
  rw [exec_rowWrites hb hin hi, ← writeThrough_eq_writeRows, writeThrough_answered ha (hr r (by simp)) hold hans]
  rfl

theorem setrow_inRange (ha : addr < n) (hr : r ≤ 7) : ¬ (Instr.setrow addr r v).outOfRange n := by
  simp only [Instr.outOfRange]
  omega

theorem setled_inRange {x y : Nat} {b : Bool} (ha : addr < n) (hx : x ≤ 7) (hy : y ≤ 7) : ¬ (Instr.setled addr x y b).outOfRange n := by
  simp only [Instr.outOfRange]
  omega

theorem exec_setrow_answered (hs : s.Inv) (hb : s.bound = true) (ha : addr < s.params.chainLength) (hr : r ≤ 7) (hans : s.answerAt 0 = some ok) :
    exec (.setrow addr r v) s = .next (endCommand (statusOfAnswer ok) (s.wroteRow addr r v ok)) := by
  obtain ⟨old, hold⟩ := hs.frameByte_exists ha hr
  rw [exec_rowWrites_one hb (setrow_inRange ha hr) rfl hold hans, valueByte_eq]

/-- Settles O38: SETROW is one row's step with the value as the new row. -/
theorem setrowOverwritesTheRow : Obligations.SetrowOverwritesTheRow := by
  intro s addr row value ok hs hb ha hr hans
  obtain ⟨old, hold⟩ := hs.frameByte_exists ha hr
  exact ⟨_, exec_setrow_answered hs hb ha hr hans, wroteRow_wrote hs ha hr, rfl,
    wroteRow_frameByte_same (ok := ok) hold, fun _ _ => wroteRow_frameByte_ne (ok := ok)⟩

/-- Settles O39: SETLED is one row's step with one bit of the row replaced. -/
theorem setledChangesOneBitAndSendsTheRow : Obligations.SetledChangesOneBitAndSendsTheRow := by
  intro s addr x y b ok hs hb ha hx hy hans
  obtain ⟨old, hold⟩ := hs.frameByte_exists ha hx
  refine ⟨_, old, setColumnBit y b old, exec_rowWrites_one hb (setled_inRange ha hx hy) rfl hold hans, hold,
    wroteRow_frameByte_same (ok := ok) hold, ?_, fun k hk => ?_, wroteRow_wrote hs ha hx, rfl, fun _ _ => wroteRow_frameByte_ne (ok := ok)⟩
  · rw [getLsbD_setColumnBit, if_pos rfl]
  · rw [getLsbD_setColumnBit, if_neg hk]

/-- Settles O58: writing the frame's own byte leaves the frame alone, and the digit register takes it. -/
theorem setrowOfTheFrameByteResynchronisesItsRow : Obligations.SetrowOfTheFrameByteResynchronisesItsRow := by
  intro s d r v hs hb hr hv hans
  have hd : d < s.params.chainLength := hs.frame ▸ (frameByte_isSome_iff.mp ⟨v, hv⟩).1
  have hsync : (s.wroteRow d r v true).InSync d r := (wroteRow_frameByte_same hv).trans (wroteRow_chipByte_same hs hd hr).symm
  exact ⟨_, exec_setrow_answered hs hb hd hr hans, rfl, setFrameByte_frame_self hv, hsync,
    fun _ _ hother hr' => wroteRow_chipByte_ne (v := v) (ok := true) hd hr hr' hother⟩

end Sys2Proof.Machine
end

section
/-! SUPPORT. Composites, answered: what CLEAR and SETCOL leave when their calls are accepted up to the end or up to a first failure
(42_frame_operations.md R121, R127, 60_exceptions.md R146). -/

namespace Sys2Proof.Machine

variable {i : Instr} {s s' t u : State} {p : Params} {addr d r n k a accepted made : Nat} {v old : Byte} {ok : Bool} {st : Status}
  {f : Nat → Byte → Byte} {g : Byte → Byte} {rows rest : List Nat} {c : TransportCall} {new : List TransportCall}

/-! ### The answers to come -/

/-- Of the next `made` calls the first `accepted` are answered success, and the one after them, if it is made, failure. -/
structure State.Answers (s : State) (accepted made : Nat) : Prop where
  stops : made ≤ accepted + 1
  answer : ∀ k, k < made → s.answerAt k = some (decide (k < accepted))

theorem State.Answers.of_success (h : ∀ k, k < made → s.answerAt k = some true) : s.Answers made made where
  stops := Nat.le_succ made
  answer k hk := by simpa [hk] using h k hk

theorem State.Answers.of_failure (h : ∀ k, k < made → s.answerAt k = some true) (hfail : s.answerAt made = some false) :
    s.Answers made (made + 1) where
  stops := le_rfl
  answer k hk := by
    rcases Nat.lt_succ_iff_lt_or_eq.mp hk with hlt | rfl
    · simpa [hlt] using h k hlt
    · simpa using hfail

/-- A first call that fails is the only one. -/
theorem State.Answers.first_failed (h : s.Answers accepted (made + 1)) (hfail : s.answerAt 0 = some false) : accepted = 0 ∧ made = 0 := by
  have hzero := (h.answer 0 (Nat.succ_pos made)).symm.trans hfail
  have hstops := h.stops
  simp at hzero
  omega

/-- After a first call that is accepted the later answers are to come. -/
theorem State.Answers.first_accepted (h : s.Answers accepted (made + 1)) (hok : s.answerAt 0 = some true) :
    ∃ a, accepted = a + 1 ∧ (s.wroteRow addr r v true).Answers a made := by
  have hpos := (h.answer 0 (Nat.succ_pos made)).symm.trans hok
  obtain ⟨a, rfl⟩ : ∃ a, accepted = a + 1 := Nat.exists_eq_add_one.mpr (by simpa using hpos)
  refine ⟨a, rfl, Nat.le_of_succ_le_succ h.stops, fun k hk => ?_⟩
  rw [wroteRow_answerAt, h.answer (k + 1) (Nat.succ_lt_succ hk)]
  simp

/-! ### One step of a composite -/

/-- What the step of row `r`, whose call `c` was answered `ok`, has made of the state `s` before the composite in the state `t` after it. -/
structure RowStep (addr r : Nat) (g : Byte → Byte) (ok : Bool) (s t : State) (c : TransportCall) (old : Byte) : Prop where
  found : s.frameByte addr r = some old
  updated : t.frameByte addr r = some (g old)
  answer : c.answer = ok
  buffer : IsTargetedWrite s.params.chainLength addr (0x01 + r) (g old) c.buf
  digit : ok = true → t.chipByte addr (0x01 + r) = some (g old)

theorem rowStep_wroteRow (hs : s.Inv) (ha : addr < s.params.chainLength) (hr : r ≤ 7) (hold : s.frameByte addr r = some old) :
    RowStep addr r g ok s (s.wroteRow addr r (g old) ok)
      ⟨transaction s.params.chainLength addr (digitRegister r) (g old), ok⟩ old where
  found := hold
  updated := wroteRow_frameByte_same hold
  answer := rfl
  buffer := transaction_isTargetedWrite ha
  digit hok := hok ▸ wroteRow_chipByte_same hs ha hr

/-- Later steps write other rows. -/
theorem RowStep.kept (h : RowStep addr r g ok s t c old) (hframe : u.frameByte addr r = t.frameByte addr r)
    (hchip : u.chipByte addr (0x01 + r) = t.chipByte addr (0x01 + r)) : RowStep addr r g ok s u c old :=
  ⟨h.found, hframe.trans h.updated, h.answer, h.buffer, fun hok => hchip.trans (h.digit hok)⟩

/-- Earlier steps wrote other rows. -/
theorem RowStep.since (h : RowStep addr r g ok s' t c old) (hparams : s'.params = s.params)
    (hframe : s'.frameByte addr r = s.frameByte addr r) : RowStep addr r g ok s t c old :=
  ⟨hframe.symm.trans h.found, h.updated, h.answer, hparams ▸ h.buffer, h.digit⟩

/-! ### The steps in order -/

/-- A composite that failed does not look at the rows after the failure. -/
theorem RowsWritten.append (h : RowsWritten addr f rows s st t) (hst : st = .transportError) (rest : List Nat) :
    RowsWritten addr f (rows ++ rest) s st t := by
  induction h with
  | done => cases hst
  | failed hf ha => exact .failed hf ha
  | more hf ha _ ih => exact .more hf ha (ih hst)

theorem RowsWritten.status_eq (h : RowsWritten addr f rows s st t) (hans : s.Answers accepted rows.length) :
    st = statusOfAnswer (decide (rows.length ≤ accepted)) := by
  induction h generalizing accepted with
  | done => simp
  | failed _ hfail =>
    obtain ⟨rfl, _⟩ := hans.first_failed hfail
    simp
  | more _ hok _ ih =>
    obtain ⟨a, rfl, hans'⟩ := hans.first_accepted hok
    simpa using ih hans'

/-- The registers `0x09..0x0F` of the target: accepted writes of rows leave them alone (60_exceptions.md R158). -/
theorem RowsWritten.chipByte_control (h : RowsWritten addr f rows s .ok t) (hs : s.Inv) (ha : addr < s.params.chainLength)
    (hr : ∀ r ∈ rows, r ≤ 7) (hcontrol : 0x08 < a) : t.chipByte addr a = s.chipByte addr a := by
  generalize hst : Status.ok = st at h
  induction h with
  | done => rfl
  | failed => cases hst
  | @more s t st r rest old _ _ _ ih =>
    have h7 : r ≤ 7 := hr r (by simp)
    rw [ih (hs.wroteRow ha h7) ha (fun q hq => hr q (by simp [hq])) hst]
    exact (wroteRow_wrote (ok := true) hs ha h7).kept rfl (by omega) (by omega) a (.inl (by omega))

/-- Each step of a composite of different rows: its call in its place, its row updated, its digit register written if the call was accepted. -/
theorem RowsWritten.steps (h : RowsWritten addr f rows s st t) (hs : s.Inv) (ha : addr < s.params.chainLength)
    (hr : ∀ r ∈ rows, r ≤ 7) (hn : rows.Nodup) (hans : s.Answers accepted rows.length) :
    ∃ new, t.calls = s.calls ++ new ∧ new.length = rows.length ∧
      ∀ k r, rows[k]? = some r → ∃ c old, new[k]? = some c ∧ RowStep addr r (f r) (decide (k < accepted)) s t c old := by
  induction h generalizing accepted with
  | done => exact ⟨[], by simp, rfl, by simp⟩
  | @failed s r rest old hold hfail =>
    obtain ⟨rfl, hrest⟩ := hans.first_failed hfail
    obtain rfl := List.eq_nil_of_length_eq_zero hrest
    refine ⟨_, rfl, rfl, fun k q hq => ?_⟩
    obtain ⟨rfl, rfl⟩ : k = 0 ∧ r = q := by simpa [List.getElem?_singleton] using hq
    exact ⟨_, old, rfl, rowStep_wroteRow hs ha (hr r (by simp)) hold⟩
  | @more s t st r rest old hold hok h ih =>
    obtain ⟨a, rfl, hans'⟩ := hans.first_accepted hok
    obtain ⟨hnew, hn'⟩ := List.nodup_cons.mp hn
    have h7 : r ≤ 7 := hr r (by simp)
    have hr' : ∀ q ∈ rest, q ≤ 7 := fun q hq => hr q (by simp [hq])
    obtain ⟨new, hcalls, hlength, hsteps⟩ := ih (hs.wroteRow ha h7) ha hr' hn' hans'
    refine ⟨⟨transaction s.params.chainLength addr (digitRegister r) (f r old), true⟩ :: new, by simp [hcalls], by simp [hlength],
      fun k q hq => ?_⟩
    cases k with
    | zero =>
      obtain rfl : r = q := by simpa using hq
      exact ⟨_, old, rfl, by
        simpa using (rowStep_wroteRow hs ha h7 hold).kept (h.frameByte_other (.inr hnew)) (h.chipByte_other ha hr' h7 (.inr hnew))⟩
    | succ k =>
      obtain ⟨c, old', hc, hstep⟩ := hsteps k q hq
      have hne : q ≠ r := fun e => hnew (e ▸ List.mem_of_getElem? hq)
      exact ⟨c, old', hc, by simpa using hstep.since (s := s) rfl (wroteRow_frameByte_ne (.inr hne))⟩

/-! ### A frame operation -/

/-- What a frame operation leaves that made `made` calls for the first of its rows, of which the first `accepted` were accepted. -/
structure WroteRows (addr : Nat) (f : Nat → Byte → Byte) (rows : List Nat) (accepted made : Nat) (s t : State)
    (new : List TransportCall) : Prop where
  status : t.result = some (statusOfAnswer (decide (made ≤ accepted)))
  calls : t.calls = s.calls ++ new
  length : new.length = made
  step : ∀ k r, k < made → rows[k]? = some r →
    ∃ c old, new[k]? = some c ∧ RowStep addr r (f r) (decide (k < accepted)) s t c old
  frameOther : ∀ d r, d ≠ addr ∨ r ∉ rows.take made → t.frameByte d r = s.frameByte d r
  digitOther : ∀ r, r ≤ 7 → r ∉ rows.take made → t.chipByte addr (0x01 + r) = s.chipByte addr (0x01 + r)
  controlRegisters : made ≤ accepted → ∀ a, 0x08 < a → t.chipByte addr a = s.chipByte addr a
  otherChips : ∀ d, d ≠ addr → t.chips[d]? = s.chips[d]?
  bound : t.bound = s.bound
  params : t.params = s.params
  requests : t.requests = s.requests

theorem RowsWritten.wroteRows (h : RowsWritten addr f (rows.take made) s st t) (hs : s.Inv) (ha : addr < s.params.chainLength)
    (hr : ∀ r ∈ rows, r ≤ 7) (hn : rows.Nodup) (hans : s.Answers accepted made) (hmade : made ≤ rows.length) :
    ∃ new, WroteRows addr f rows accepted made s (endCommand st t) new := by
  have hlen : (rows.take made).length = made := List.length_take_of_le hmade
  have hr' : ∀ r ∈ rows.take made, r ≤ 7 := fun r hmem => hr r (List.mem_of_mem_take hmem)
  have hst := h.status_eq (hlen.symm ▸ hans)
  obtain ⟨new, hcalls, hlength, hsteps⟩ := h.steps hs ha hr' hn.take (hlen.symm ▸ hans)
  rw [hlen] at hst hlength
  exact ⟨new,
    { status := by rw [hst]; rfl
      calls := hcalls
      length := hlength
      step := fun k r hk hrow => by
        obtain ⟨c, old, hc, hstep⟩ := hsteps k r (by rw [List.getElem?_take_of_lt hk, hrow])
        exact ⟨c, old, hc, hstep.kept rfl rfl⟩
      frameOther := fun _ _ hother => h.frameByte_other hother
      digitOther := fun _ h7 hother => h.chipByte_other ha hr' h7 (.inr hother)
      controlRegisters := fun hok _ hcontrol => by
        rw [decide_eq_true hok] at hst
        subst hst
        exact h.chipByte_control hs ha hr' hcontrol
      otherChips := fun _ hd => h.chips_other hd
      bound := h.bound
      params := h.params
      requests := h.requests }⟩

/-- A frame operation of different rows whose calls are answered, to the end or to a first failure. -/
theorem exec_rowWrites_answered (hs : s.Inv) (hb : s.bound = true) (hin : ¬ i.outOfRange s.params.chainLength)
    (hi : i.rowWrites s.params = some (addr, f, rows)) (hn : rows.Nodup) (hans : s.Answers accepted made)
    (hend : made = rows.length ∨ accepted < made ∧ made < rows.length) :
    ∃ t new, exec i s = .next t ∧ WroteRows addr f rows accepted made s t new := by
  obtain ⟨ha, hr⟩ := inRange_of_rowWrites hi hin
  have hmade : made ≤ rows.length := by omega
  have hlen : (rows.take made).length = made := List.length_take_of_le hmade
  obtain ⟨st, t, hw⟩ : ∃ st t, RowsWritten addr f (rows.take made) s st t :=
    RowsWritten.exists (fun r hmem => hs.frameByte_exists ha (hr r (List.mem_of_mem_take hmem)))
      fun k hk => by simp [hans.answer k (hlen ▸ hk)]
  have hall : RowsWritten addr f rows s st t := by
    rcases hend with rfl | ⟨hfailed, _⟩
    · rwa [List.take_length] at hw
    · have hst := hw.status_eq (hlen.symm ▸ hans)
      rw [hlen, decide_eq_false (Nat.not_le.mpr hfailed)] at hst
      rw [← List.take_append_drop made rows]
      exact hw.append hst _
  obtain ⟨new, hwrote⟩ := hw.wroteRows hs ha hr hn hans hmade
  exact ⟨_, new, by rw [exec_rowWrites hb hin hi, hall.run ha hr]; rfl, hwrote⟩

end Sys2Proof.Machine
end

section
/-! SUPPORT. CLEAR and SETCOL, answered: the composite's law with the rows of each in their order (42_frame_operations.md section 5). -/

namespace Sys2Proof.Machine

variable {s t : State} {p : Params} {addr r k column accepted made : Nat} {value : Byte} {f : Nat → Byte → Byte} {rows : List Nat}
  {new : List TransportCall}

/-! ### The rows in order -/

theorem rowsAscending_eq_range : rowsAscending = List.range 8 := rfl

theorem rowsAscending_getElem? (hk : k ≤ 7) : rowsAscending[k]? = some k := by
  rw [rowsAscending_eq_range, List.getElem?_range (by omega)]

theorem setcolOrder_length : (setcolOrder p).length = 8 := by
  unfold setcolOrder
  split <;> rfl

/-- Row `k` of the order is the row of step `k` (R127, decision D9, log 20). -/
theorem setcolOrder_getElem? (hk : k ≤ 7) : (setcolOrder p)[k]? = some (setcolRow p k) := by
  unfold setcolOrder setcolRow
  split
  · exact rowsAscending_getElem? hk
  · have hlen : rowsAscending.length = 8 := rfl
    rw [List.getElem?_reverse (by omega), hlen]
    exact rowsAscending_getElem? (by omega)

theorem setcolRow_le (hk : k ≤ 7) : setcolRow p k ≤ 7 := mem_setcolOrder.mp (List.mem_of_getElem? (setcolOrder_getElem? hk))

/-- A row of a later step is none of the rows before, when no row is written twice. -/
theorem not_mem_take_of_nodup (hn : rows.Nodup) (hk : made ≤ k) (hrow : rows[k]? = some r) : r ∉ rows.take made := by
  intro hmem
  obtain ⟨j, hj, hjr⟩ := List.mem_take_iff_getElem.mp hmem
  have hlt : j < rows.length := by omega
  have hjk : j = k := (List.getElem?_inj hlt hn).mp (by rw [hrow, List.getElem?_eq_getElem hlt, hjr])
  omega

/-- When every row has been written, each row has its step. -/
theorem WroteRows.step_of_mem (h : WroteRows addr f rows rows.length rows.length s t new) (hr : r ∈ rows) :
    ∃ c old, RowStep addr r (f r) true s t c old := by
  obtain ⟨k, hk⟩ := List.mem_iff_getElem?.mp hr
  obtain ⟨hlt, _⟩ := List.getElem?_eq_some_iff.mp hk
  obtain ⟨c, old, _, hstep⟩ := h.step k r hlt hk
  exact ⟨c, old, by simpa [hlt] using hstep⟩

/-! ### CLEAR -/

theorem clear_answered (hs : s.Inv) (hb : s.bound = true) (ha : addr < s.params.chainLength) (hans : s.Answers accepted made)
    (hend : made = 8 ∨ accepted < made ∧ made < 8) :
    ∃ t new, exec (.clear addr) s = .next t ∧ WroteRows addr (fun _ _ => 0x00) rowsAscending accepted made s t new :=
  exec_rowWrites_answered hs hb (Nat.not_le.mpr ha) rfl rowsAscending_nodup hans hend

/-- Settles O40: all eight steps of CLEAR are accepted. -/
theorem clearZeroesTheDevice : Obligations.ClearZeroesTheDevice := by
  intro s addr hs hb ha hans
  obtain ⟨t, new, hrun, h⟩ := clear_answered hs hb ha (.of_success hans) (.inl rfl)
  refine ⟨t, new, hrun, h.status, h.calls, h.length, fun k hk => ?_, fun r hr => ?_, fun d r hd => h.frameOther d r (.inl hd), h.otherChips,
    h.controlRegisters le_rfl, h.bound, h.params, h.requests⟩
  · obtain ⟨c, _, hc, hstep⟩ := h.step k k hk (rowsAscending_getElem? (Nat.le_of_lt_succ hk))
    exact ⟨c, hc, hstep.answer.trans (decide_eq_true hk), hstep.buffer⟩
  · obtain ⟨_, _, hstep⟩ := h.step_of_mem (mem_rowsAscending.mpr hr)
    exact ⟨hstep.updated, hstep.digit rfl⟩

/-- Settles O41: `i` steps of CLEAR are accepted and one fails. -/
theorem clearStopsAtTheFirstFailure : Obligations.ClearStopsAtTheFirstFailure := by
  intro s addr i hs hb ha hi hans hfail
  obtain ⟨t, new, hrun, h⟩ := clear_answered hs hb ha (.of_failure hans hfail) (by omega)
  have hstep : ∀ k, k ≤ i → ∃ c old, new[k]? = some c ∧ RowStep addr k (fun _ => 0x00) (decide (k < i)) s t c old :=
    fun k hk => h.step k k (by omega) (rowsAscending_getElem? (by omega))
  have hlater : ∀ r, i < r → r ∉ rowsAscending.take (i + 1) := fun r hr => by
    rw [rowsAscending_eq_range, List.take_range, List.mem_range]
    omega
  refine ⟨t, new, hrun, ?_, h.calls, h.length, fun k hk => ?_, fun r hr => ?_, fun r hr => h.frameOther addr r (.inr (hlater r hr)),
    fun r hr => ?_, fun r hr h7 => h.digitOther r h7 (hlater r hr), fun d r hd => h.frameOther d r (.inl hd), h.otherChips,
    h.bound, h.params, h.requests⟩
  · simpa using h.status
  · obtain ⟨c, _, hc, hk⟩ := hstep k hk
    exact ⟨c, hc, hk.answer, hk.buffer⟩
  · obtain ⟨_, _, _, hr⟩ := hstep r hr
    exact hr.updated
  · obtain ⟨_, _, _, hlt⟩ := hstep r (by omega)
    exact hlt.digit (decide_eq_true hr)

/-! ### SETCOL -/

/-- What SETCOL makes of a row (R127). -/
def setcolByte (p : Params) (column : Nat) (value : Byte) (r : Nat) : Byte → Byte := setColumnBit column (columnBit p value r)

theorem getLsbD_setcolByte_column (row : Byte) : (setcolByte p column value r row).getLsbD (7 - column) = setcolBit p value r := by
  rw [setcolByte, getLsbD_setColumnBit, if_pos rfl]
  rfl

theorem getLsbD_setcolByte_other (row : Byte) : ∀ k, k ≠ 7 - column → (setcolByte p column value r row).getLsbD k = row.getLsbD k := by
  intro k hk
  rw [setcolByte, getLsbD_setColumnBit, if_neg hk]

theorem setcol_answered (hs : s.Inv) (hb : s.bound = true) (ha : addr < s.params.chainLength) (hc : column ≤ 7)
    (hans : s.Answers accepted made) (hend : made = 8 ∨ accepted < made ∧ made < 8) :
    ∃ t new, exec (.setcol addr column value) s = .next t ∧
      WroteRows addr (setcolByte s.params column value) (setcolOrder s.params) accepted made s t new := by
  have hin : ¬ (Instr.setcol addr column value).outOfRange s.params.chainLength := not_or.mpr ⟨Nat.not_le.mpr ha, Nat.not_lt.mpr hc⟩
  exact exec_rowWrites_answered hs hb hin rfl (setcolOrder_nodup _) hans (by rwa [setcolOrder_length])

/-- Settles O42: all eight steps of SETCOL are accepted. -/
theorem setcolSetsOneColumn : Obligations.SetcolSetsOneColumn := by
  intro s addr column value hs hb ha hcolumn hans
  obtain ⟨t, new, hrun, h⟩ := setcol_answered (value := value) hs hb ha hcolumn (.of_success hans) (.inl rfl)
  refine ⟨t, new, hrun, h.status, h.calls, h.length, fun k hk => ?_, fun r hr => ?_, fun d r hd => h.frameOther d r (.inl hd), h.otherChips,
    h.controlRegisters le_rfl, h.bound, h.params, h.requests⟩
  · obtain ⟨c, old, hc, hstep⟩ := h.step k _ hk (setcolOrder_getElem? (Nat.le_of_lt_succ hk))
    exact ⟨c, _, hc, hstep.answer.trans (decide_eq_true hk), hstep.updated, hstep.buffer⟩
  · rw [← setcolOrder_length (p := s.params)] at h
    obtain ⟨_, old, hstep⟩ := h.step_of_mem (mem_setcolOrder.mpr hr)
    exact ⟨old, _, hstep.found, hstep.updated, hstep.digit rfl, getLsbD_setcolByte_column old, getLsbD_setcolByte_other old⟩

/-- Settles O43: `i` steps of SETCOL are accepted and one fails. -/
theorem setcolStopsAtTheFirstFailure : Obligations.SetcolStopsAtTheFirstFailure := by
  intro s addr column i value hs hb ha hcolumn hi hans hfail
  obtain ⟨t, new, hrun, h⟩ := setcol_answered (value := value) hs hb ha hcolumn (.of_failure hans hfail) (by omega)
  refine ⟨t, new, hrun, ?_, h.calls, h.length, fun k hk => ?_, fun k hk h7 => ?_, fun d r hd => h.frameOther d r (.inl hd), h.otherChips,
    h.bound, h.params, h.requests⟩
  · simpa using h.status
  · obtain ⟨c, old, hc, hstep⟩ := h.step k _ (by omega) (setcolOrder_getElem? (by omega))
    exact ⟨c, old, _, hc, hstep.answer, hstep.found, hstep.updated, getLsbD_setcolByte_column old, getLsbD_setcolByte_other old,
      fun hlt => hstep.digit (decide_eq_true hlt), hstep.buffer⟩
  · have hlater : setcolRow s.params k ∉ (setcolOrder s.params).take (i + 1) :=
      not_mem_take_of_nodup (setcolOrder_nodup _) hk (setcolOrder_getElem? h7)
    exact ⟨h.frameOther addr _ (.inr hlater), h.digitOther _ (setcolRow_le h7) hlater⟩

end Sys2Proof.Machine
end

section
/-! SUPPORT. The equivalences of 30_encoding.md R91: a composite is its single-row operations issued by a host that stops at the first status
other than `Ok`. -/

namespace Sys2Proof.Machine

variable {i : Instr} {s t : State} {p : Params} {addr r : Nat} {st : Status} {f : Nat → Byte → Byte} {rows rest : List Nat} {g : Nat → Instr}

/-! ### Frame operations that write no row -/

theorem returnsStatus_of_rowWrites (h : i.rowWrites p = some (addr, f, rows)) : i.returnsStatus = true := by
  cases i <;> cases h <;> rfl

/-- R147. -/
theorem exec_rowWrites_unbound (hb : s.bound = false) (h : i.rowWrites p = some (addr, f, rows)) : exec i s = .fault .unbound := by
  have hnot : ¬ s.bound = true := by simp [hb]
  cases i <;> cases h <;> exact if_neg hnot

/-- R142. -/
theorem exec_rowWrites_outOfRange (hb : s.bound = true) (h : i.rowWrites p = some (addr, f, rows))
    (hout : i.outOfRange s.params.chainLength) : exec i s = .next (endCommand .outOfBounds s) := by
  cases i <;> cases h <;> apply whenBound_of_ok hb
  case clear => exact if_pos ((noDevice_iff _ _).mpr hout)
  case setled | setrow | setcol =>
    refine if_pos ?_
    simp only [Bool.or_eq_true, noDevice_iff, decide_eq_true_eq, or_assoc]
    exact hout

/-! ### A host that stops at the first status other than `Ok` -/

/-- The host's first command does not see an earlier status (10_state.md R27). -/
theorem runWhileOk_endCommand {is : List Instr} (hi : i.returnsStatus = true) :
    runWhileOk (i :: is) (endCommand st s) = runWhileOk (i :: is) s := by
  have hexec : exec i (endCommand st s) = exec i s := earlierStatusHasNoEffect i s (some st) hi
  rw [runWhileOk, runWhileOk, hexec]

/-- The steps of a composite are the commands `g` of its rows, each of which writes its one row. -/
theorem respond_writeRows_eq_runWhileOk (hb : s.bound = true) (hg : ∀ r p, (g r).rowWrites p = some (addr, fun _ => f r, [r]))
    (hin : ∀ r ∈ rows, ¬ (g r).outOfRange s.params.chainLength) :
    respond (writeRows addr f rows s) = runWhileOk (rows.map g) (endCommand .ok s) := by
  induction rows generalizing s with
  | nil => rfl
  | cons r rest ih =>
    have hinr := hin r (by simp)
    obtain ⟨ha, hr⟩ := inRange_of_rowWrites (hg r s.params) hinr
    have hexec : exec (g r) s = respond (writeThrough addr r (f r) s) := by
      rw [exec_rowWrites hb hinr (hg r _), ← writeThrough_eq_writeRows]
    rw [List.map_cons, runWhileOk_endCommand (returnsStatus_of_rowWrites (hg r s.params)), runWhileOk, writeRows, hexec]
    cases hw : writeThrough addr r (f r) s with
    | error e => rfl
    | ok next =>
      obtain ⟨st, u⟩ := next
      obtain ⟨old, ok, _, _, rfl, rfl⟩ := writeThrough_cases ha (hr r (by simp)) hw
      cases ok with
      | false => rfl
      | true =>
        have hrest : ∀ q ∈ rest, ¬ (g q).outOfRange (s.wroteRow addr r (f r old) true).params.chainLength :=
          fun q hq => hin q (by simp [hq])
        simpa [respond] using ih (s := s.wroteRow addr r (f r old) true) hb hrest

/-- A frame operation whose range check is that of each of its rows' commands. -/
theorem exec_rowWrites_eq_runWhileOk (hi : i.rowWrites s.params = some (addr, f, r :: rest))
    (hg : ∀ r p, (g r).rowWrites p = some (addr, fun _ => f r, [r]))
    (hrange : ∀ q ∈ r :: rest, (g q).outOfRange s.params.chainLength ↔ i.outOfRange s.params.chainLength) :
    exec i s = runWhileOk ((r :: rest).map g) s := by
  cases hb : s.bound with
  | false => rw [exec_rowWrites_unbound hb hi, List.map_cons, runWhileOk, exec_rowWrites_unbound hb (hg r s.params)]
  | true =>
    by_cases hout : i.outOfRange s.params.chainLength
    · have hfirst := (hrange r (by simp)).mpr hout
      rw [exec_rowWrites_outOfRange hb hi hout, List.map_cons, runWhileOk, exec_rowWrites_outOfRange hb (hg r s.params) hfirst]
      rfl
    · have hin : ∀ q ∈ r :: rest, ¬ (g q).outOfRange s.params.chainLength := fun q hq => (hrange q hq).not.mpr hout
      rw [exec_rowWrites hb hout hi, respond_writeRows_eq_runWhileOk hb hg hin, List.map_cons,
        runWhileOk_endCommand (returnsStatus_of_rowWrites (hg r s.params))]

/-- Settles O44: each row of CLEAR is the one row of a SETROW of zero. -/
theorem clearBehavesAsEightSetrows : Obligations.ClearBehavesAsEightSetrows := by
  intro s addr
  rw [← rowsAscending_eq_range]
  refine exec_rowWrites_eq_runWhileOk (f := fun _ _ => 0x00) rfl (fun _ _ => rfl) fun r hr => ?_
  have h7 : r ≤ 7 := mem_rowsAscending.mp hr
  simp only [Instr.outOfRange]
  omega

/-- Settles O45: each row of SETCOL, with the default parameters, is the one row of a SETLED. -/
theorem setcolBehavesAsEightSetleds : Obligations.SetcolBehavesAsEightSetleds := by
  intro s addr column value hmsb hascending
  have hi : (Instr.setcol addr column value).rowWrites s.params =
      some (addr, fun r => setColumnBit column (value.getLsbD (7 - r)), rowsAscending) := by
    simp [Instr.rowWrites, columnBit, setcolOrder, hmsb, hascending]
  rw [← rowsAscending_eq_range]
  refine exec_rowWrites_eq_runWhileOk hi (fun _ _ => rfl) fun r hr => ?_
  have h7 : r ≤ 7 := mem_rowsAscending.mp hr
  simp only [Instr.outOfRange]
  omega

end Sys2Proof.Machine
end

section
/-! SUPPORT. How a command ends (60_exceptions.md sections 1 and 2): its status against the answers of its calls, and the operands that are
answered with `OutOfBounds`. -/

namespace Sys2Proof.Machine

variable {i : Instr} {s t : State} {p : Params} {addr slot reg : Nat} {value : Byte} {ok : Bool} {st : Status} {f : Nat → Byte → Byte}
  {rows : List Nat} {new : List TransportCall}

/-! ### The status and the calls -/

/-- The calls `new` of a command are such as the status `st` reports (R140, R144). -/
def Status.Reports (new : List TransportCall) : Status → Prop
  | .ok => ∀ c ∈ new, c.answer = true
  | .transportError => ∃ before last, new = before ++ [last] ∧ last.answer = false ∧ ∀ c ∈ before, c.answer = true
  | .outOfBounds | .invalidArgument => new = []

/-- A failed call is reported, and nothing else is reported so. -/
theorem Status.Reports.transportError_iff (h : st.Reports new) : st = .transportError ↔ ∃ c ∈ new, c.answer = false := by
  cases st with
  | ok => simpa [Status.Reports] using h
  | transportError =>
    obtain ⟨before, last, rfl, hlast, -⟩ := h
    exact iff_of_true rfl ⟨last, by simp, hlast⟩
  | outOfBounds | invalidArgument =>
    obtain rfl : new = [] := h
    simp

/-- The status of a register write reports its one call. -/
theorem statusOfAnswer_reports {buf : List Byte} : (statusOfAnswer ok).Reports [⟨buf, ok⟩] := by
  cases ok with
  | true => simp [Status.Reports]
  | false => exact ⟨[], _, rfl, rfl, by simp⟩

/-- The status of a composite reports the calls of its rows. -/
theorem RowsWritten.reports (h : RowsWritten addr f rows s st t) : ∃ new, t.calls = s.calls ++ new ∧ st.Reports new := by
  obtain ⟨_, new, _, hcalls, _, _, hok, herror⟩ := h.calls
  refine ⟨new, hcalls, ?_⟩
  obtain rfl | rfl := h.status
  · exact (hok rfl).2
  · exact herror rfl

theorem returnsStatus_of_latched (h : i.latched = some (slot, reg, value)) : i.returnsStatus = false := by
  cases i <;> cases h <;> rfl

/-- A command leaves on the result port a status that reports its calls. -/
theorem Effect.reports (h : Effect i s t) (hi : i.returnsStatus = true) :
    ∃ st new, t.result = some st ∧ t.calls = s.calls ++ new ∧ st.Reports new := by
  cases h with
  | initialised => exact ⟨_, [], rfl, (List.append_nil _).symm, by simp [Status.Reports]⟩
  | noTransport | outOfBounds => exact ⟨_, [], rfl, (List.append_nil _).symm, rfl⟩
  | wrote => exact ⟨_, _, rfl, rfl, statusOfAnswer_reports⟩
  | rows _ _ _ _ _ hw =>
    obtain ⟨new, hcalls, hnew⟩ := hw.reports
    exact ⟨_, new, rfl, hcalls, hnew⟩
  | latched hlatch => cases hi.symm.trans (returnsStatus_of_latched hlatch)

/-- Settles O26: the status on the result port reports the calls made. -/
theorem failureEndsTheCommandAtThatCall : Obligations.FailureEndsTheCommandAtThatCall := by
  intro i s t hi h
  obtain ⟨st, new, hresult, hcalls, hnew⟩ := (exec_effect h).reports hi
  simp only [hresult, Option.some.injEq]
  refine ⟨new, hcalls, ?_, hnew.transportError_iff, ?_, ?_⟩
  · rintro rfl
    exact hnew
  · rintro rfl
    exact hnew
  · rintro (rfl | rfl) <;> exact hnew

/-! ### The operand checks -/

/-- The instructions with an operand check are those that write a register or rows (R142). -/
theorem writes_of_outOfRange {n : Nat} (p : Params) (h : i.outOfRange n) :
    (∃ addr reg value, i.registerWrite = some (addr, reg, value)) ∨ ∃ addr f rows, i.rowWrites p = some (addr, f, rows) := by
  cases i with
  | shutdown | intensity | disptest | wrreg => exact .inl ⟨_, _, _, rfl⟩
  | clear | setled | setrow | setcol => exact .inr ⟨_, _, _, rfl⟩
  | _ => exact h.elim

/-- R142, for one register write. -/
theorem exec_registerWrite_outOfRange (hb : i.isCommand = true → s.bound = true) (h : i.registerWrite = some (addr, reg, value))
    (hout : i.outOfRange s.params.chainLength) : exec i s = .next (endCommand .outOfBounds s) := by
  cases i <;> cases h
  case shutdown | disptest => exact whenBound_of_ok (hb rfl) (writeRegister_outOfBounds (.inl hout))
  case intensity level =>
    apply whenBound_of_ok (hb rfl)
    by_cases hlevel : levelLast < level
    · exact if_pos hlevel
    · exact (if_neg hlevel).trans (writeRegister_outOfBounds (.inl (hout.resolve_right hlevel)))
  case wrreg => exact congrArg respond (writeRegister_outOfBounds hout)

theorem isCommand_of_rowWrites (h : i.rowWrites p = some (addr, f, rows)) : i.isCommand = true := by
  cases i <;> cases h <;> rfl

/-- An operand out of range is answered, by a bound block, and nothing but the status changes (R142). -/
theorem exec_outOfRange (hb : i.isCommand = true → s.bound = true) (hout : i.outOfRange s.params.chainLength) :
    exec i s = .next (endCommand .outOfBounds s) := by
  obtain ⟨addr, reg, value, hi⟩ | ⟨addr, f, rows, hi⟩ := writes_of_outOfRange s.params hout
  · exact exec_registerWrite_outOfRange hb hi hout
  · exact exec_rowWrites_outOfRange (hb (isCommand_of_rowWrites hi)) hi hout

theorem statusOfAnswer_ne_outOfBounds : statusOfAnswer ok ≠ .outOfBounds := by
  cases ok <;> decide

theorem RowsWritten.status_ne_outOfBounds (h : RowsWritten addr f rows s st t) : st ≠ .outOfBounds := by
  obtain rfl | rfl := h.status <;> decide

/-- No status but that of an operand check is `OutOfBounds`: the table of R142 is complete. -/
theorem Effect.outOfRange_of_result (h : Effect i s t) (hi : i.returnsStatus = true) (hresult : t.result = some .outOfBounds) :
    i.outOfRange s.params.chainLength := by
  cases h with
  | initialised | noTransport => cases hresult
  | outOfBounds _ hout => exact hout
  | wrote => exact absurd (Option.some.inj hresult) statusOfAnswer_ne_outOfBounds
  | rows _ _ _ _ _ hw => exact absurd (Option.some.inj hresult) hw.status_ne_outOfBounds
  | latched hlatch => cases hi.symm.trans (returnsStatus_of_latched hlatch)

/-- Settles O29: an operand out of range is answered at once, and only the operand check has that status. -/
theorem outOfRangeOperandsAnswerOutOfBounds : Obligations.OutOfRangeOperandsAnswerOutOfBounds :=
  fun _ _ hb => ⟨exec_outOfRange hb, fun _ hi h => (exec_effect h).outOfRange_of_result hi⟩

end Sys2Proof.Machine
end

section
/-! SUPPORT. What a chip holds after latching a pair (60_exceptions.md R158, R160). -/

namespace Sys2Proof.Machine

variable {s : State} {slot reg a d : Nat} {value : Byte} {mk : Nat → Byte → Instr}

/-! ### The latched pair, register by register -/

theorem latchedPair_chips_other (hd : d ≠ slot) : (s.latchedPair slot reg value).chips[d]? = s.chips[d]? :=
  List.getElem?_modify_ne _ _ hd.symm

/-- The target of a pair with an address that is meaningful for writes has taken the value. -/
theorem latchedPair_chips_target (h0 : reg ≠ 0x00) (hD : reg ≠ 0x0D) (hE : reg ≠ 0x0E) :
    (s.latchedPair slot reg value).chips[slot]? = s.chips[slot]?.map (·.write reg value) := by
  have hwrite : latchPair s.draws slot reg value = (·.write reg value) := funext fun _ => latchPair_write h0 hD hE
  rw [State.latchedPair, hwrite]
  exact List.getElem?_modify_eq _ _ _

theorem latchedPair_chipByte_same (hc : slot < s.chips.length) (hreg : reg ≤ 0x0F) (h0 : reg ≠ 0x00) (hD : reg ≠ 0x0D) (hE : reg ≠ 0x0E) :
    (s.latchedPair slot reg value).chipByte slot reg = some value := by
  rw [State.chipByte, latchedPair_chips_target h0 hD hE, List.getElem?_eq_getElem hc]
  exact read_write_same (Nat.pos_of_ne_zero h0) hreg

theorem latchedPair_chipByte_ne (hreg : reg ≤ 0x0F) (h0 : reg ≠ 0x00) (hD : reg ≠ 0x0D) (hE : reg ≠ 0x0E) (ha : a ≠ reg) :
    (s.latchedPair slot reg value).chipByte slot a = s.chipByte slot a := by
  rw [State.chipByte, latchedPair_chips_target h0 hD hE, State.chipByte]
  cases s.chips[slot]? with
  | none => rfl
  | some c => exact read_write_ne hreg ha

/-! ### The thirteen pairs -/

/-- Each pair latches its value in the register it is listed with (20_memory.md R51). -/
theorem latched_of_mem_writingPairs (h : (reg, mk) ∈ writingPairs) : (mk slot value).latched = some (slot, reg, value) := by
  have hall : ∀ q ∈ writingPairs, (q.2 slot value).latched = some (slot, q.1, value) :=
    List.forall_iff_forall_mem.mp ⟨rfl, rfl, rfl, rfl, rfl, rfl, rfl, rfl, rfl, rfl, rfl, rfl, rfl⟩
  exact hall _ h

/-- The listed registers are meaningful for writes (20_memory.md R50). -/
theorem register_of_mem_writingPairs (h : (reg, mk) ∈ writingPairs) : reg ≤ 0x0F ∧ reg ≠ 0x00 ∧ reg ≠ 0x0D ∧ reg ≠ 0x0E := by
  have hall : ∀ q ∈ writingPairs, q.1 ≤ 0x0F ∧ q.1 ≠ 0x00 ∧ q.1 ≠ 0x0D ∧ q.1 ≠ 0x0E := by decide
  exact hall _ h

/-- Settles O49: each of the pairs is a latch of its value, which is a write of the register named. -/
theorem latchedPairsWriteTheirRegister : Obligations.LatchedPairsWriteTheirRegister := by
  intro s slot reg value mk hmem hs hslot
  obtain ⟨hreg, h0, hD, hE⟩ := register_of_mem_writingPairs hmem
  exact ⟨_, exec_latched (latched_of_mem_writingPairs hmem) hslot, latchedPair_chipByte_same (hs.chips ▸ hslot) hreg h0 hD hE,
    fun _ => latchedPair_chipByte_ne hreg h0 hD hE, fun _ => latchedPair_chips_other, rfl⟩

end Sys2Proof.Machine
end

section
/-! SUPPORT. The decoder and the encoder: a command word is what its six fields say, a pair what its two bytes say (30_encoding.md sections 1 to 3),
and the step on bits that are an instruction or none. -/

namespace Sys2Proof

variable {w : Word} {op addr a b slot reg : Nat} {s : Bool} {p : Pair} {v : Byte} {i : Instr} {row : PairRow}

/-! ### Bits side by side, as numbers -/

/-- The number of two bit vectors side by side. -/
theorem toNat_append_eq_add {m n : Nat} (x : BitVec m) (y : BitVec n) : (x ++ y).toNat = x.toNat * 2 ^ n + y.toNat := by
  rw [BitVec.toNat_append, ← Nat.shiftLeft_add_eq_or_of_lt y.isLt, Nat.shiftLeft_eq]

/-! ### Command words -/

/-- A word without reserved bits, by its other five fields (R78). -/
structure HasFields (w : Word) (op : Nat) (s : Bool) (addr a b : Nat) : Prop where
  op : fieldOp w = op
  rsv : fieldRsv w = 0
  s : fieldS w = s
  addr : fieldAddr w = addr
  a : fieldA w = a
  b : fieldB w = b

/-- The table of R80 with R79, as a function of the fields. -/
def commandOfFields (op : Nat) (s : Bool) (addr a b : Nat) : Except Reject Instr :=
  match op with
  | 0 => .ok (.init s)
  | 1 => .ok (.shutdown addr s)
  | 2 => .ok (.intensity addr a)
  | 3 => .ok (.disptest addr s)
  | 4 => .ok (.clear addr)
  | 5 => .ok (.setled addr a b s)
  | 6 => .ok (.setrow addr a (BitVec.ofNat operandBits b))
  | 7 => .ok (.setcol addr a (BitVec.ofNat operandBits b))
  | _ => .error .reservedOpcode

/-- R82. -/
theorem decodeCommand_reservedBits (h : fieldRsv w ≠ 0) : decodeCommand w = .error .reservedBits := if_pos h

/-- R83. -/
theorem decodeCommand_reservedOpcode (hr : fieldRsv w = 0) (hop : 8 ≤ fieldOp w) : decodeCommand w = .error .reservedOpcode := by
  simp [decodeCommand, hr, commandTable_reserved hop]

/-- A word without reserved bits is decoded by its fields alone (R79, R80). -/
theorem HasFields.decode (h : HasFields w op s addr a b) : decode (.command w) = commandOfFields op s addr a b := by
  obtain ⟨rfl, hr, rfl, rfl, rfl, rfl⟩ := h
  show decodeCommand w = _
  rcases Nat.lt_or_ge (fieldOp w) 8 with hlt | hge
  · have hrow : ∀ op < 8, ∃ row, commandTable.find? (fun row => row.op == op) = some row ∧
        commandOfFields op (fieldS w) (fieldAddr w) (fieldA w) (fieldB w) = .ok (row.read w) := by
      intro op hop
      interval_cases op <;> exact ⟨_, rfl, rfl⟩
    obtain ⟨row, hfind, hread⟩ := hrow _ hlt
    rw [decodeCommand_row hr hfind, hread]
  · have hnone : commandOfFields (fieldOp w) (fieldS w) (fieldAddr w) (fieldA w) (fieldB w) = .error .reservedOpcode := by
      obtain ⟨k, hk⟩ := Nat.exists_eq_add_of_le' hge
      rw [hk]
      rfl
    rw [decodeCommand_reservedOpcode hr hge, hnone]

/-- Every word without reserved bits has fields. -/
theorem hasFields_self (hr : fieldRsv w = 0) : HasFields w (fieldOp w) (fieldS w) (fieldAddr w) (fieldA w) (fieldB w) :=
  ⟨rfl, hr, rfl, rfl, rfl, rfl⟩

/-- The fields of an encoded command are what was encoded. -/
theorem hasFields_commandWord (hop : op < 16) (haddr : addr < 256) (ha : a < 256) (hb : b < 256) :
    HasFields (commandWord op s addr a b) op s addr a b := by
  have hs : s.toNat < 2 := Bool.toNat_lt s
  have hw : (commandWord op s addr a b).toNat = op * 2 ^ 28 + 0 * 2 ^ 25 + s.toNat * 2 ^ 24 + addr * 2 ^ 16 + a * 2 ^ 8 + b := by
    rw [commandWord_toNat]
    omega
  obtain ⟨h1, h2, h3, h4, h5, h6⟩ := fields_of_parts (by decide) hs haddr ha hb hw
  exact ⟨h1, h2, h3.trans (by cases s <;> rfl), h4, h5, h6⟩

theorem decide_toNat_eq_one (x : BitVec 1) : decide (x.toNat = 1) = (x == 1#1) := by decide +revert

/-- The fields of a word put together from bits are those bits (R78). -/
theorem hasFields_append (op : BitVec 4) (s : BitVec 1) (addr a b : BitVec 8) :
    HasFields (op ++ 0#3 ++ s ++ addr ++ a ++ b) op.toNat (s == 1#1) addr.toNat a.toNat b.toNat := by
  have hw : (op ++ 0#3 ++ s ++ addr ++ a ++ b).toNat =
      op.toNat * 2 ^ 28 + 0 * 2 ^ 25 + s.toNat * 2 ^ 24 + addr.toNat * 2 ^ 16 + a.toNat * 2 ^ 8 + b.toNat := by
    simp only [toNat_append_eq_add, BitVec.toNat_zero]
    omega
  obtain ⟨h1, h2, h3, h4, h5, h6⟩ := fields_of_parts (by decide) s.isLt addr.isLt a.isLt b.isLt hw
  exact ⟨h1, h2, h3.trans (decide_toNat_eq_one s), h4, h5, h6⟩

theorem fieldRsv_eq_extract (w : Word) : fieldRsv w = (w.extractLsb' 25 3).toNat := by
  rw [fieldRsv_eq, BitVec.extractLsb'_toNat, Nat.shiftRight_eq_div_pow]

theorem fieldOp_eq_extract (w : Word) : fieldOp w = (w.extractLsb' 28 4).toNat := by
  rw [fieldOp_eq, BitVec.extractLsb'_toNat, Nat.shiftRight_eq_div_pow]

/-- The two uppermost fields of a word, whatever is below them. -/
theorem fields_append (op : BitVec 4) (rsv : BitVec 3) (rest : BitVec 25) :
    fieldOp (op ++ rsv ++ rest) = op.toNat ∧ fieldRsv (op ++ rsv ++ rest) = rsv.toNat := by
  have hw : (op ++ rsv ++ rest).toNat = op.toNat * 2 ^ 28 + rsv.toNat * 2 ^ 25 + rest.toNat := by
    simp only [toNat_append_eq_add]
    omega
  rw [fieldOp_eq, fieldRsv_eq, hw]
  omega

/-! ### Wire pairs -/

/-- A pair whose register byte has a row is that row's instruction (R51). -/
theorem decodePair_row (hrow : pairTable.find? (fun row => row.register == pairRegister p) = some row) :
    decodePair slot p = .ok (row.read slot (pairValue p)) := by
  simp [decodePair, hrow]

theorem decodePair_malformed (h : 0x0F < pairRegister p) : decodePair slot p = .error .malformedPair := by
  simp [decodePair, pairTable_reserved h]

/-- A pair that decodes does so by a row of its register byte. -/
theorem decodePair_cases (h : decodePair slot p = .ok i) :
    ∃ row ∈ pairTable, row.register = pairRegister p ∧ i = row.read slot (pairValue p) := by
  cases hfind : pairTable.find? (fun row => row.register == pairRegister p) with
  | none => simp [decodePair, hfind] at h
  | some row =>
    rw [decodePair_row hfind] at h
    cases h
    exact ⟨row, List.mem_of_find?_eq_some hfind, by simpa using List.find?_some hfind, rfl⟩

/-- Every row of R51 is a latch of its own register. -/
theorem latched_of_mem_pairTable (h : row ∈ pairTable) : (row.read slot v).latched = some (slot, row.register, v) := by
  have hall : ∀ row ∈ pairTable, (row.read slot v).latched = some (slot, row.register, v) :=
    List.forall_iff_forall_mem.mp ⟨rfl, rfl, rfl, rfl, rfl, rfl, rfl, rfl, rfl, rfl, rfl, rfl, rfl, rfl, rfl, rfl⟩
  exact hall row h

/-- The one operand of a wire pair that has a range is its slot (R78, log 21). -/
theorem wellFormed_of_latched (h : i.latched = some (slot, reg, v)) : i.wellFormed = isOperand slot := by
  cases i <;> cases h <;> rfl

theorem pairRegister_append (reg value : BitVec 8) : pairRegister (reg ++ value) = reg.toNat := by
  have hvalue := byte_lt value
  rw [pairRegister_eq, toNat_append_eq_add]
  omega

theorem pairValue_append (reg value : BitVec 8) : pairValue (reg ++ value) = value := by
  have hvalue := byte_lt value
  apply BitVec.eq_of_toNat_eq
  show (reg ++ value).toNat % 2 ^ 8 % 2 ^ 8 = value.toNat
  rw [toNat_append_eq_add]
  omega

/-- A pair made of two bytes, by the row of its register byte. -/
theorem decode_pair_append {slot reg value : BitVec 8} (hrow : pairTable.find? (fun row => row.register == reg.toNat) = some row)
    (hread : row.read slot.toNat value = i) : decode (.pair slot (reg ++ value)) = .ok i := by
  have h := decodePair_row (slot := slot.toNat) (p := reg ++ value) (by rwa [pairRegister_append])
  rwa [pairValue_append, hread] at h

/-- An encoded pair decodes by the row of its register. -/
theorem decode_encode_of_pair (he : encode i = pairRequest reg slot v) (hslot : slot < 256) (hreg : reg < 256)
    (hrow : pairTable.find? (fun row => row.register == reg) = some row) (hread : row.read slot v = i) : decode (encode i) = .ok i := by
  have h := decodePair_row (slot := slot) (p := pairWord reg v) (by rwa [pairRegister_pairWord hreg])
  rw [pairValue_pairWord, hread] at h
  rw [he]
  show decodePair (BitVec.ofNat operandBits slot).toNat (pairWord reg v) = .ok i
  rw [operand_ofNat_toNat hslot, h]

/-! ### The primitive -/

theorem decode_primitiveRequest {value : Operand} (haddr : addr < 256) (hreg : reg < 256) :
    decode (primitiveRequest addr reg value) = .ok (.wrreg addr reg value) := by
  have hvalue := operand_lt value
  simp only [primitiveRequest, decode, decodePrimitive_eq, operand_ofNat_toNat haddr, registerValue_toNat hreg]
  have hhigh : (reg * 256 + value.toNat) / 2 ^ 8 = reg := by omega
  have hlow : (reg * 256 + value.toNat) % 2 ^ 8 = value.toNat := by omega
  rw [hhigh, hlow, BitVec.ofNat_toNat, BitVec.setWidth_eq]

theorem decode_primitive_append (addr reg value : BitVec 8) :
    decode (.primitive addr (reg ++ value)) = .ok (.wrreg addr.toNat reg.toNat value) := by
  have hvalue := byte_lt value
  have hhigh : (reg ++ value).toNat / 2 ^ 8 = reg.toNat := pairRegister_append reg value
  have hlow : BitVec.ofNat 8 ((reg ++ value).toNat % 2 ^ 8) = value := pairValue_append reg value
  simp only [decode, decodePrimitive_eq, hhigh, hlow]

/-! ### What decodes fits its fields -/

theorem field_lt (w : Word) (f : BitRange) : field w f < 2 ^ (f.hi + 1 - f.lo) := Nat.mod_lt _ (Nat.two_pow_pos _)

theorem wellFormed_of_commandOfFields (haddr : addr < 256) (ha : a < 256) (hb : b < 256) (h : commandOfFields op s addr a b = .ok i) :
    i.wellFormed = true := by
  unfold commandOfFields at h
  split at h <;> cases h <;> simp [Instr.wellFormed, haddr, ha, hb]

theorem wellFormed_of_decodeCommand (h : decode (.command w) = .ok i) : i.wellFormed = true := by
  by_cases hr : fieldRsv w = 0
  · rw [(hasFields_self hr).decode] at h
    exact wellFormed_of_commandOfFields (field_lt w addrAt) (field_lt w aAt) (field_lt w bAt) h
  · cases (decodeCommand_reservedBits hr).symm.trans h

/-! ### The obligations -/

/-- Settles O1: a command word has the fields it was made of, a pair its two bytes, a call of the primitive its two operands. -/
theorem decodeOfEncodeIsTheInstruction : Obligations.DecodeOfEncodeIsTheInstruction := by
  intro i h
  cases i with
  | init t => exact (hasFields_commandWord (by decide) (by decide) (by decide) (by decide)).decode
  | shutdown addr s | disptest addr s | clear addr =>
    exact (hasFields_commandWord (by decide) (isOperand_iff.mp h) (by decide) (by decide)).decode
  | intensity addr level =>
    obtain ⟨haddr, hlevel⟩ := (Bool.and_eq_true_iff.mp h).imp isOperand_iff.mp isOperand_iff.mp
    exact (hasFields_commandWord (by decide) haddr hlevel (by decide)).decode
  | setled addr x y s =>
    obtain ⟨hxy, hy⟩ := Bool.and_eq_true_iff.mp h
    obtain ⟨haddr, hx⟩ := (Bool.and_eq_true_iff.mp hxy).imp isOperand_iff.mp isOperand_iff.mp
    exact (hasFields_commandWord (by decide) haddr hx (isOperand_iff.mp hy)).decode
  | setrow addr line value | setcol addr line value =>
    obtain ⟨haddr, hline⟩ := (Bool.and_eq_true_iff.mp h).imp isOperand_iff.mp isOperand_iff.mp
    rw [encode, (hasFields_commandWord (by decide) haddr hline (operand_lt value)).decode]
    simp [commandOfFields, opSetrow, opSetcol]
  | wrreg addr reg value =>
    obtain ⟨haddr, hreg⟩ := (Bool.and_eq_true_iff.mp h).imp isOperand_iff.mp isOperand_iff.mp
    exact decode_primitiveRequest haddr hreg
  | noop | digit0 | digit1 | digit2 | digit3 | digit4 | digit5 | digit6 | digit7 | decodeMode | intensityReg | scanLimit | shutdownReg
  | reserved0d | reserved0e | displayTestReg => exact decode_encode_of_pair rfl (isOperand_iff.mp h) (by decide) rfl rfl

/-- Settles O2: the word has those fields. -/
theorem commandWordsDecodeAsTheLayoutSays : Obligations.CommandWordsDecodeAsTheLayoutSays := by
  intro s addr a b
  have hvalue : BitVec.ofNat operandBits b.toNat = b := by simp
  have hdecode := fun op : BitVec 4 => (hasFields_append op s addr a b).decode
  refine ⟨hdecode 0, hdecode 1, hdecode 2, hdecode 3, hdecode 4, hdecode 5, (hdecode 6).trans ?_, (hdecode 7).trans ?_⟩
  · exact congrArg (fun value => Except.ok (Instr.setrow addr.toNat a.toNat value)) hvalue
  · exact congrArg (fun value => Except.ok (Instr.setcol addr.toNat a.toNat value)) hvalue

/-- Settles O3: the reserved bits are looked at first, then the opcode. -/
theorem reservedCommandWordsAreRejected : Obligations.ReservedCommandWordsAreRejected := by
  intro op rsv rest
  refine ⟨fun hrsv => decodeCommand_reservedBits ?_, fun hop => decodeCommand_reservedOpcode ?_ ?_⟩
  · rw [(fields_append op rsv rest).2]
    exact fun hzero => hrsv (BitVec.eq_of_toNat_eq hzero)
  · rw [(fields_append op 0#3 rest).2]
    rfl
  · rwa [(fields_append op 0#3 rest).1]

/-- Settles O4: the pair's bytes are its register and its value. -/
theorem pairsDecodeByTheirRegisterByte : Obligations.PairsDecodeByTheirRegisterByte := by
  intro slot reg value
  refine ⟨decode_pair_append rfl rfl, decode_pair_append rfl rfl, decode_pair_append rfl rfl, decode_pair_append rfl rfl,
    decode_pair_append rfl rfl, decode_pair_append rfl rfl, decode_pair_append rfl rfl, decode_pair_append rfl rfl,
    decode_pair_append rfl rfl, decode_pair_append rfl rfl, decode_pair_append rfl rfl, decode_pair_append rfl rfl,
    decode_pair_append rfl rfl, decode_pair_append rfl rfl, decode_pair_append rfl rfl, decode_pair_append rfl rfl,
    fun hreg => decodePair_malformed ?_, decode_primitive_append slot reg value⟩
  rwa [pairRegister_append]

/-- Settles O5: operands are fields of a word, bytes of a pair, or operands of the primitive's port. -/
theorem decodedInstructionsFitTheirFields : Obligations.DecodedInstructionsFitTheirFields := by
  intro r i h
  cases r with
  | command w => exact wellFormed_of_decodeCommand h
  | primitive addr p =>
    cases h
    have hp : p.toNat < 2 ^ 16 := p.isLt
    have haddr := operand_lt addr
    have hreg : p.toNat / 2 ^ 8 < 256 := by omega
    exact Bool.and_eq_true_iff.mpr ⟨isOperand_iff.mpr haddr, isOperand_iff.mpr hreg⟩
  | pair slot p =>
    obtain ⟨row, hrow, -, rfl⟩ := decodePair_cases h
    rw [wellFormed_of_latched (latched_of_mem_pairTable hrow)]
    exact isOperand_iff.mpr (operand_lt slot)

/-- Settles O6: closed words. -/
theorem specExampleWordsDecode : Obligations.SpecExampleWordsDecode := by
  unfold Obligations.SpecExampleWordsDecode
  decide

/-- Settles O7: closed lines of text. -/
theorem assemblerGivesTheSpecsWords : Obligations.AssemblerGivesTheSpecsWords := by
  unfold Obligations.AssemblerGivesTheSpecsWords
  decide

end Sys2Proof

namespace Sys2Proof.Machine

variable {s : State} {q : Request} {rest : List Request} {i : Instr} {e : Reject}

/-! ### The step -/

/-- R102: the next request is taken, and its instruction runs. -/
theorem step_decoded (hq : s.requests = q :: rest) (hd : decode q = .ok i) : step s = exec i { s with requests := rest } := by
  simp only [step, takeRequest, hq, hd]

theorem step_rejected (hq : s.requests = q :: rest) (hd : decode q = .error e) : step s = reject e := by
  simp only [step, takeRequest, hq, hd]

/-- Settles O8: the request is taken from the port and its instruction runs. -/
theorem stepRunsTheDecodedRequest : Obligations.StepRunsTheDecodedRequest :=
  fun _ _ _ _ => step_decoded

/-- Settles O9: the decoder rejects such bits, and the step answers the rejection. -/
theorem bitsThatAreNoInstructionStopTheStep : Obligations.BitsThatAreNoInstructionStopTheStep := by
  intro s rest
  refine ⟨fun w hq hbits => ?_, fun slot p hq hreg => ?_⟩
  · by_cases hr : fieldRsv w = 0
    · have hzero : w.extractLsb' 25 3 = 0#3 := BitVec.eq_of_toNat_eq ((fieldRsv_eq_extract w).symm.trans hr)
      have hop : 8 ≤ fieldOp w := by
        rw [fieldOp_eq_extract]
        exact hbits.resolve_left (not_not_intro hzero)
      exact step_rejected hq (decodeCommand_reservedOpcode hr hop)
    · exact step_rejected hq (decodeCommand_reservedBits hr)
  · refine step_rejected hq (decodePair_malformed ?_)
    rwa [BitVec.extractLsb'_toNat, Nat.shiftRight_eq_div_pow, Nat.mod_eq_of_lt] at hreg
    have hp : p.toNat < 2 ^ 16 := p.isLt
    omega

/-- Settles O10: there is no request to take. -/
theorem idleBlockWaits : Obligations.IdleBlockWaits := by
  intro s hq
  simp only [step, takeRequest, hq]

end Sys2Proof.Machine
end

section
/-! SUPPORT. The lifecycle, and what a command shows at the transport: the registers it can reach, how many calls it makes, and when it
ends or is stopped (60_exceptions.md, 70_reset_and_hazards.md). -/

namespace Sys2Proof.Machine

variable {i : Instr} {s t : State} {p : Params} {addr reg d r a : Nat} {value v : Byte} {ok : Bool} {st : Status} {f : Nat → Byte → Byte}
  {rows : List Nat}

/-! ### The lifecycle (10_state.md R23) -/

/-- INIT alone writes `bound`. -/
theorem Effect.bound_cases (h : Effect i s t) : (t.bound = s.bound ∧ i ≠ .init true) ∨ (i = .init true ∧ t.bound = true) := by
  cases h with
  | initialised hi => exact .inr ⟨hi, rfl⟩
  | noTransport hi => exact .inl ⟨rfl, by simp [hi]⟩
  | outOfBounds _ hout => exact .inl ⟨rfl, by rintro rfl; exact hout⟩
  | wrote _ _ hi => exact .inl ⟨rfl, by rintro rfl; cases hi⟩
  | rows _ _ hi _ _ hw => exact .inl ⟨hw.bound, by rintro rfl; cases hi⟩
  | latched hi => exact .inl ⟨rfl, by rintro rfl; cases hi⟩

/-- Settles O14, by the cases of `Effect`. -/
theorem onlyInitWritesBound : Obligations.OnlyInitWritesBound :=
  fun _ _ _ h => (exec_effect h).bound_cases

/-- Settles O11: every command but INIT asks for `bound` before it looks at its operands. -/
theorem commandsBeforeInitFault : Obligations.CommandsBeforeInitFault := by
  intro i s hc hinit hb
  have hnot : ¬ s.bound = true := by simp [hb]
  cases i with
  | init t => exact absurd rfl (hinit t)
  | shutdown | intensity | disptest | clear | setled | setrow | setcol => exact if_neg hnot
  | wrreg | noop | digit0 | digit1 | digit2 | digit3 | digit4 | digit5 | digit6 | digit7 | decodeMode | intensityReg | scanLimit
  | shutdownReg | reserved0d | reserved0e | displayTestReg => cases hc

/-- Settles O13: INIT without a transport only ends the command. -/
theorem initWithoutTransportChangesNothing : Obligations.InitWithoutTransportChangesNothing :=
  fun _ => rfl

/-- Settles O16: the fields of the state at reset. -/
theorem resetIsPowerOn : Obligations.ResetIsPowerOn :=
  ⟨rfl, rfl, rfl, rfl, rfl, rfl⟩

/-- Settles O30: the four named numbers. -/
theorem statusNumbers : Obligations.StatusNumbers :=
  ⟨rfl, rfl, rfl, rfl⟩

/-! ### The registers a command can reach (30_encoding.md R72, R84) -/

/-- The control operations write the intensity, shutdown and display-test registers. -/
theorem register_of_isCommand (hc : i.isCommand = true) (h : i.registerWrite = some (addr, reg, value)) :
    reg = 0x0A ∨ reg = 0x0C ∨ reg = 0x0F := by
  cases i <;> cases h
  case wrreg => cases hc
  case shutdown | intensity | disptest => decide

/-- The registers of the commands: the eight digit registers and those of the control operations. -/
theorem Effect.calls_registers (h : Effect i s t) (hc : i.isCommand = true) :
    ∃ new, t.calls = s.calls ++ new ∧ ∀ c ∈ new, ∃ addr reg value,
      (1 ≤ reg ∧ reg ≤ 8 ∨ reg = 0x0A ∨ reg = 0x0C ∨ reg = 0x0F) ∧ IsTargetedWrite s.params.chainLength addr reg value c.buf := by
  cases h with
  | initialised | noTransport | outOfBounds | latched => exact ⟨[], (List.append_nil _).symm, by simp⟩
  | wrote _ _ hi ha hr _ =>
    refine ⟨_, rfl, fun c hmem => ?_⟩
    rw [List.mem_singleton.mp hmem]
    exact ⟨_, _, _, .inr (register_of_isCommand hc hi), transaction_isTargetedWrite ha⟩
  | rows _ _ _ ha hr hw =>
    obtain ⟨new, hcalls, hnew⟩ := hw.calls_transactions
    refine ⟨new, hcalls, fun c hmem => ?_⟩
    obtain ⟨r, hrow, v, hbuf⟩ := hnew c hmem
    have h7 : r ≤ 7 := hr r hrow
    have hdigit : 1 ≤ digitRegister r ∧ digitRegister r ≤ 8 := by
      simp only [digitRegister, regDigit0]
      omega
    exact ⟨_, _, v, .inl hdigit, hbuf ▸ transaction_isTargetedWrite ha⟩

/-- Settles O22: the registers of the commands, listed. -/
theorem commandsReachOnlyTheirRegisters : Obligations.CommandsReachOnlyTheirRegisters := by
  intro i s t hc h
  obtain ⟨new, hcalls, hnew⟩ := (exec_effect h).calls_registers hc
  refine ⟨new, hcalls, fun c hmem => ?_⟩
  obtain ⟨addr, reg, value, hreg, hwrite⟩ := hnew c hmem
  refine ⟨addr, reg, value, ?_, hwrite⟩
  simp only [List.mem_cons, List.not_mem_nil, or_false]
  omega

/-- An accepted write to a register that is meaningful for writes changes that register of that device at most (60_exceptions.md R158). -/
theorem sent_chipByte_ne (ha : addr < s.params.chainLength) (hr : reg ≤ 0x0F) (h0 : reg ≠ 0x00) (hD : reg ≠ 0x0D) (hE : reg ≠ 0x0E)
    (hne : a ≠ reg) :
    (s.sent addr (transaction s.params.chainLength addr reg value) true).chipByte d a = s.chipByte d a := by
  simp only [State.chipByte, sent_chips]
  by_cases hd : d = addr
  · subst hd
    rw [chipsAfter_target_ok ha hr]
    cases s.chips[d]? with
    | none => rfl
    | some c =>
      simp only [Option.map_some, latchPair_write h0 hD hE]
      exact read_write_ne hr hne
  · rw [chipsAfter_other hd]

/-- Accepted writes of rows leave every register but the digit registers alone, of every chip. -/
theorem RowsWritten.chipByte_above_digits (h : RowsWritten addr f rows s .ok t) (ha : addr < s.params.chainLength)
    (hr : ∀ r ∈ rows, r ≤ 7) (habove : 0x08 < a) : t.chipByte d a = s.chipByte d a := by
  generalize hst : Status.ok = st at h
  induction h with
  | done => rfl
  | failed => cases hst
  | @more s t st r rest old _ _ _ ih =>
    have hdigit : 1 ≤ digitRegister r ∧ digitRegister r ≤ 8 := by
      have h7 : r ≤ 7 := hr r (by simp)
      simp only [digitRegister, regDigit0]
      omega
    rw [ih ha (fun q hq => hr q (by simp [hq])) hst]
    exact sent_chipByte_ne (s := s.setFrameByte addr r (f r old)) ha (by omega) (by omega) (by omega) (by omega) (by omega)

/-- A command without a failed call leaves the registers that it cannot reach alone. -/
theorem Effect.chipByte_unreachable (h : Effect i s t) (hc : i.isCommand = true) (hresult : t.result ≠ some .transportError)
    (habove : 0x08 < a) (hA : a ≠ 0x0A) (hC : a ≠ 0x0C) (hF : a ≠ 0x0F) : t.chipByte d a = s.chipByte d a := by
  cases h with
  | initialised | noTransport | outOfBounds => rfl
  | @wrote addr reg value ok _ _ hi ha hr _ =>
    have hreg := register_of_isCommand hc hi
    cases ok with
    | false => exact absurd rfl hresult
    | true => exact sent_chipByte_ne ha hr (by omega) (by omega) (by omega) (by omega)
  | rows _ _ _ ha hr hw =>
    obtain rfl | rfl := hw.status
    · exact hw.chipByte_above_digits ha hr habove
    · exact absurd rfl hresult
  | latched hi => rw [isCommand_of_latched hi] at hc; cases hc

/-- Settles O23: the four registers are among those no command reaches. -/
theorem unreachableChipRegistersKeepTheirValues : Obligations.UnreachableChipRegistersKeepTheirValues := by
  intro i s t hc h hresult d a hmem
  simp only [List.mem_cons, List.not_mem_nil, or_false] at hmem
  exact (exec_effect h).chipByte_unreachable hc hresult (by omega) (by omega) (by omega) (by omega)

/-! ### How many calls, and whether they end (70_reset_and_hazards.md R184) -/

/-- An instruction that returns a status is INIT, one register write, or a frame operation. -/
theorem kinds_of_returnsStatus (p : Params) (h : i.returnsStatus = true) :
    (∃ b, i = .init b) ∨ (∃ addr reg value, i.registerWrite = some (addr, reg, value)) ∨
      ∃ addr f rows, i.rowWrites p = some (addr, f, rows) := by
  cases i with
  | init b => exact .inl ⟨b, rfl⟩
  | shutdown | intensity | disptest | wrreg => exact .inr (.inl ⟨_, _, _, rfl⟩)
  | clear | setled | setrow | setcol => exact .inr (.inr ⟨_, _, _, rfl⟩)
  | noop | digit0 | digit1 | digit2 | digit3 | digit4 | digit5 | digit6 | digit7 | decodeMode | intensityReg | scanLimit | shutdownReg
  | reserved0d | reserved0e | displayTestReg => cases h

/-- A frame operation writes one to eight rows (42_frame_operations.md R128). -/
theorem rows_length_of_rowWrites (h : i.rowWrites p = some (addr, f, rows)) : 1 ≤ rows.length ∧ rows.length ≤ 8 := by
  cases i <;> cases h
  case clear => decide
  case setled | setrow => exact ⟨le_rfl, by simp⟩
  case setcol => simp [setcolOrder_length]

/-- A command that ends has made at most eight calls and has a status. -/
theorem Effect.calls_le_eight (h : Effect i s t) (hi : i.returnsStatus = true) :
    ∃ new, t.calls = s.calls ++ new ∧ new.length ≤ 8 ∧ t.result ≠ none := by
  cases h with
  | initialised | noTransport | outOfBounds => exact ⟨[], (List.append_nil _).symm, by simp, by simp⟩
  | wrote => exact ⟨_, rfl, by simp, by simp⟩
  | rows _ _ hrows _ _ hw =>
    obtain ⟨_, new, _, hcalls, hlength, _⟩ := hw.calls
    exact ⟨new, hcalls, hlength.trans (rows_length_of_rowWrites hrows).2, by simp⟩
  | latched hlatch => cases hi.symm.trans (returnsStatus_of_latched hlatch)

/-- A bound block whose next eight calls are answered ends every command. -/
theorem exec_answered (hs : s.Inv) (hb : s.bound = true) (hi : i.returnsStatus = true) (hans : ∀ k, k < 8 → s.answerAt k ≠ none) :
    ∃ t, exec i s = .next t := by
  by_cases hin : i.outOfRange s.params.chainLength
  · exact ⟨_, exec_outOfRange (fun _ => hb) hin⟩
  obtain ⟨b, rfl⟩ | ⟨addr, reg, value, hwrite⟩ | ⟨addr, f, rows, hrows⟩ := kinds_of_returnsStatus s.params hi
  · cases b <;> exact ⟨_, rfl⟩
  · obtain ⟨ok, hok⟩ := Option.ne_none_iff_exists'.mp (hans 0 (by decide))
    obtain ⟨t, hrun, -⟩ := exec_registerWrite_wrote hs (fun _ => hb) hin hwrite hok
    exact ⟨t, hrun⟩
  · obtain ⟨ha, hr⟩ := inRange_of_rowWrites hrows hin
    have hlength := (rows_length_of_rowWrites hrows).2
    obtain ⟨st, t, hw⟩ : ∃ st t, RowsWritten addr f rows s st t :=
      RowsWritten.exists (fun r hmem => hs.frameByte_exists ha (hr r hmem)) fun k hk => hans k (by omega)
    exact ⟨_, by rw [exec_rowWrites hb hin hrows, hw.run ha hr]; rfl⟩

theorem returnsStatus_of_isCommand (h : i.isCommand = true) : i.returnsStatus = true := by
  cases i with
  | wrreg => rfl
  | _ => exact h

/-- Settles O27: the command ends, and its rows bound its calls. -/
theorem answeredCommandsEndWithinEightCalls : Obligations.AnsweredCommandsEndWithinEightCalls := by
  intro i s hs hc hb hans
  have hi := returnsStatus_of_isCommand hc
  obtain ⟨t, h⟩ := exec_answered hs hb hi hans
  obtain ⟨new, hnew⟩ := (exec_effect h).calls_le_eight hi
  exact ⟨t, new, h, hnew⟩

/-- A composite whose first call is never answered. -/
theorem writeRows_silent {rest : List Nat} (ha : addr < s.params.chainLength) (hr : r ≤ 7) (hf : s.frameByte addr r = some v)
    (hans : s.answerAt 0 = none) : writeRows addr f (r :: rest) s = .error .transportSilent := by
  simp only [writeRows, writeThrough_silent ha hr hf hans]

/-- Settles O28: the first call is that of the one register, or of the first row. -/
theorem silentTransportStopsTheCommand : Obligations.SilentTransportStopsTheCommand := by
  intro i s hs hb hi hinit hin hans
  obtain ⟨b, rfl⟩ | ⟨addr, reg, value, hwrite⟩ | ⟨addr, f, rows, hrows⟩ := kinds_of_returnsStatus s.params hi
  · exact absurd rfl (hinit b)
  · obtain ⟨ha, hr⟩ := inRange_of_registerWrite hwrite hin
    rw [exec_registerWrite (fun _ => hb) hin hwrite, writeRegister_silent ha hr hans]
    rfl
  · obtain ⟨ha, hr⟩ := inRange_of_rowWrites hrows hin
    obtain ⟨r, rest, rfl⟩ := List.exists_cons_of_length_pos (rows_length_of_rowWrites hrows).1
    have h7 : r ≤ 7 := hr r List.mem_cons_self
    obtain ⟨v, hv⟩ := hs.frameByte_exists ha h7
    rw [exec_rowWrites hb hin hrows, writeRows_silent ha h7 hv hans]
    rfl

/-! ### The control operations (41_device_control.md R113) -/

/-- One register write leaves the block's own state alone, and makes a call unless an operand was out of range. -/
theorem Effect.registerWrite_leaves_block (h : Effect i s t) (hi : i.registerWrite = some (addr, reg, value)) :
    t.frame = s.frame ∧ t.bound = s.bound ∧ ∃ new, t.calls = s.calls ++ new ∧ new.length ≤ 1 ∧
      (t.result = some .outOfBounds → new = []) := by
  by_cases hin : i.outOfRange s.params.chainLength
  · rw [h.of_outOfRange hin]
    exact ⟨rfl, rfl, [], (List.append_nil _).symm, by simp, fun _ => rfl⟩
  · obtain ⟨ok, rfl⟩ := h.of_registerWrite hin hi
    exact ⟨rfl, rfl, _, rfl, le_rfl, fun hresult => absurd (Option.some.inj hresult) statusOfAnswer_ne_outOfBounds⟩

/-- Settles O36: each of the three is one register write. -/
theorem controlOperationsLeaveTheBlockAlone : Obligations.ControlOperationsLeaveTheBlockAlone := by
  intro i s t addr level b hi h
  simp only [List.mem_cons, List.not_mem_nil, or_false] at hi
  obtain rfl | rfl | rfl := hi <;> exact (exec_effect h).registerWrite_leaves_block rfl

/-! ### The chip of a slot (60_exceptions.md R158) -/

/-- Settles O51: each of the two is a latch in its slot. -/
theorem reservedPairsTouchOnlyTheirChip : Obligations.ReservedPairsTouchOnlyTheirChip := by
  intro s slot value i hi hslot
  obtain ⟨reg, hlatch⟩ : ∃ reg, i.latched = some (slot, reg, value) := by
    simp only [List.mem_cons, List.not_mem_nil, or_false] at hi
    obtain rfl | rfl := hi <;> exact ⟨_, rfl⟩
  exact ⟨_, exec_latched hlatch hslot, List.length_modify .., fun _ => latchedPair_chips_other, rfl⟩

/-- The chips after an accepted transaction are the chips after its target latched its pair. -/
theorem chipsAfter_eq_latchedPair (ha : addr < s.params.chainLength) (hr : reg ≤ 0x0F) :
    chipsAfter true s.draws addr (transaction s.params.chainLength addr reg value) s.chips = (s.latchedPair addr reg value).chips := by
  apply List.ext_getElem?
  intro d
  by_cases hd : d = addr
  · subst hd
    rw [chipsAfter_target_ok ha hr]
    exact (List.getElem?_modify_eq _ _ _).symm
  · rw [chipsAfter_other hd, latchedPair_chips_other hd]

/-- Settles O53: the accepted transaction and the pair in the target's slot leave the same chips. -/
theorem acceptedWriteIsTheTargetsLatch : Obligations.AcceptedWriteIsTheTargetsLatch := by
  intro s t addr reg value i hs ha hr hans h hd
  have hin : ¬ (Instr.wrreg addr reg value).outOfRange s.params.chainLength := by
    simp only [Instr.outOfRange]
    omega
  have hlatch : i.latched = some (addr, reg, value) := by
    have haddr : addr < 256 := by
      have hchain := (params_wellFormed_iff.mp hs.params).2
      omega
    obtain ⟨row, hrow, hreg, rfl⟩ := decodePair_cases hd
    rw [latched_of_mem_pairTable hrow, hreg, pairRegister_append, pairValue_append, operand_ofNat_toNat haddr,
      operand_ofNat_toNat (by omega)]
  rw [exec_registerWrite (fun hc => by cases hc) hin rfl, valueByte_eq, writeRegister_answered ha hr hans] at h
  cases h
  exact ⟨_, exec_latched hlatch ha, (chipsAfter_eq_latchedPair ha hr).symm⟩

end Sys2Proof.Machine
end

section
/-! SUPPORT. The frame and its mirror: what a frame operation makes of the frame whatever the answers, and which rows of the display are in sync
with it afterwards (60_exceptions.md R161, 70_reset_and_hazards.md R174, 42_frame_operations.md R124). -/

namespace Sys2Proof.Machine

variable {i : Instr} {s s' t u v : State} {p : Params} {addr d r x y x' y' : Nat} {b b' : Bool} {st : Status} {f : Nat → Byte → Byte}
  {rows : List Nat} {row : Byte}

/-! ### The frame, byte by byte -/

/-- A frame is determined by its bytes. -/
theorem frame_ext (h : ∀ d r, s.frameByte d r = t.frameByte d r) : s.frame = t.frame := by
  apply List.ext_getElem?
  intro d
  have hbyte : ∀ r, s.frameByte d r = t.frameByte d r := h d
  unfold State.frameByte at hbyte
  cases hs : s.frame[d]? with
  | none =>
    cases ht : t.frame[d]? with
    | none => rfl
    | some rows => simpa [hs, ht] using hbyte 0
  | some rows =>
    cases ht : t.frame[d]? with
    | none => simpa [hs, ht] using hbyte 0
    | some rows' =>
      have hrows : rows = rows' := Vector.ext fun r hr => by
        simpa [hs, ht, hr] using hbyte r
      rw [hrows]

/-! ### Two SETLEDs (42_frame_operations.md R124 (d)) -/

/-- What SETLED makes of the frame byte `(d, r)` of a chain of `n` devices. -/
def ledUpdate (n addr x y : Nat) (b : Bool) (d r : Nat) : Byte → Byte :=
  if (addr < n ∧ x ≤ 7 ∧ y ≤ 7) ∧ d = addr ∧ r = x then setColumnBit y b else id

/-- SETLED's effect on the frame, whatever its operands and the answer. -/
theorem Effect.frameByte_setled (h : Effect (.setled addr x y b) s t) :
    t.frameByte d r = (s.frameByte d r).map (ledUpdate s.params.chainLength addr x y b d r) := by
  by_cases hin : (Instr.setled addr x y b).outOfRange s.params.chainLength
  · have hnot : ¬ ((addr < s.params.chainLength ∧ x ≤ 7 ∧ y ≤ 7) ∧ d = addr ∧ r = x) := by
      simp only [Instr.outOfRange] at hin
      omega
    rw [h.of_outOfRange hin, ledUpdate, if_neg hnot, Option.map_id_apply, endCommand_frameByte]
  · obtain ⟨st, old, ok, hold, rfl⟩ := h.of_rowWrite hin rfl
    rw [endCommand_frameByte]
    by_cases hsame : d = addr ∧ r = x
    · obtain ⟨rfl, rfl⟩ := hsame
      have hrange : d < s.params.chainLength ∧ r ≤ 7 ∧ y ≤ 7 := by
        simp only [Instr.outOfRange] at hin
        omega
      rw [wroteRow_frameByte_same hold, hold, ledUpdate, if_pos ⟨hrange, rfl, rfl⟩, Option.map_some]
    · rw [wroteRow_frameByte_ne (by tauto), ledUpdate, if_neg (fun hboth => hsame hboth.2), Option.map_id_apply]

/-- Different columns of a row are different bits of its byte (R74). -/
theorem setColumnBit_comm (hy : y ≤ 7) (hy' : y' ≤ 7) (hne : y ≠ y') :
    setColumnBit y' b' (setColumnBit y b row) = setColumnBit y b (setColumnBit y' b' row) := by
  apply BitVec.eq_of_getLsbD_eq
  intro k _
  simp only [getLsbD_setColumnBit]
  by_cases hk : k = 7 - y
  · have hk' : k ≠ 7 - y' := by omega
    simp only [if_pos hk, if_neg hk']
  · simp only [if_neg hk]

theorem ledUpdate_comm {n : Nat} (hne : x ≠ x' ∨ y ≠ y') (row : Byte) :
    ledUpdate n addr x' y' b' d r (ledUpdate n addr x y b d r row) = ledUpdate n addr x y b d r (ledUpdate n addr x' y' b' d r row) := by
  unfold ledUpdate
  by_cases h : (addr < n ∧ x ≤ 7 ∧ y ≤ 7) ∧ d = addr ∧ r = x
  · by_cases h' : (addr < n ∧ x' ≤ 7 ∧ y' ≤ 7) ∧ d = addr ∧ r = x'
    · rw [if_pos h, if_pos h']
      exact setColumnBit_comm (by omega) (by omega) (by omega)
    · rw [if_neg h']
      rfl
  · rw [if_neg h]
    rfl

/-- Settles O47: two SETLEDs update each frame byte by two functions that commute. -/
theorem setledsCommuteOnTheFrame : Obligations.SetledsCommuteOnTheFrame := by
  intro s t t' u u' addr x y x' y' b b' hne ht ht' hu hu'
  replace ht := exec_effect ht
  replace hu := exec_effect hu
  apply frame_ext
  intro d r
  rw [(exec_effect ht').frameByte_setled, (exec_effect hu').frameByte_setled, ht.params, hu.params, ht.frameByte_setled,
    hu.frameByte_setled, Option.map_map, Option.map_map]
  congr 1
  exact funext (ledUpdate_comm hne)

/-! ### Rows in sync (60_exceptions.md R161) -/

/-- An accepted row is in sync. -/
theorem wroteRow_inSync (hs : s.Inv) (ha : addr < s.params.chainLength) (hr : r ≤ 7) {value old : Byte} (hold : s.frameByte addr r = some old) :
    (s.wroteRow addr r value true).InSync addr r :=
  (wroteRow_frameByte_same hold).trans (wroteRow_chipByte_same hs ha hr).symm

/-- A row that a composite does not write stays in sync, whatever the answers (R161 (c)). -/
theorem RowsWritten.inSync_other (h : RowsWritten addr f rows s st t) (ha : addr < s.params.chainLength) (hr : ∀ q ∈ rows, q ≤ 7)
    (h7 : r ≤ 7) (hne : d ≠ addr ∨ r ∉ rows) (hsync : s.InSync d r) : t.InSync d r :=
  (h.frameByte_other hne).trans (hsync.trans (h.chipByte_other ha hr h7 hne).symm)

/-- After success every row written is in sync (R161 (a), (b)). -/
theorem RowsWritten.inSync_of_ok (h : RowsWritten addr f rows s .ok t) (hs : s.Inv) (ha : addr < s.params.chainLength)
    (hr : ∀ q ∈ rows, q ≤ 7) (hmem : r ∈ rows) : t.InSync addr r := by
  generalize hst : Status.ok = st at h
  induction h with
  | done => simp at hmem
  | failed => cases hst
  | @more s t st q rest old hold _ h ih =>
    have hq : q ≤ 7 := hr q (by simp)
    have hr' : ∀ q ∈ rest, q ≤ 7 := fun q hq => hr q (by simp [hq])
    by_cases hlater : r ∈ rest
    · exact ih (hs.wroteRow ha hq) ha hr' hlater hst
    · obtain rfl : r = q := (List.mem_cons.mp hmem).resolve_right hlater
      exact h.inSync_other ha hr' hq (.inr hlater) (wroteRow_inSync hs ha hq hold)

/-- The rows a frame operation may write are those it does write. -/
theorem mem_rows_of_mayWrite (h : i.rowWrites p = some (addr, f, rows)) (hw : i.mayWrite d r) (hr : r ≤ 7) : d = addr ∧ r ∈ rows := by
  cases i <;> cases h
  case clear => exact ⟨hw, mem_rowsAscending.mpr hr⟩
  case setcol => exact ⟨hw, mem_setcolOrder.mpr hr⟩
  case setled | setrow => exact ⟨hw.1, List.mem_singleton.mpr hw.2⟩

/-- Only INIT and the frame operations write frame bytes (10_state.md R22). -/
theorem rowWrites_of_mayWrite (p : Params) (hinit : ∀ b, i ≠ .init b) (hw : i.mayWrite d r) :
    ∃ addr f rows, i.rowWrites p = some (addr, f, rows) := by
  cases i with
  | init b => exact absurd rfl (hinit b)
  | clear | setled | setrow | setcol => exact ⟨_, _, _, rfl⟩
  | _ => exact hw.elim

/-- A frame operation that returns `Ok` has written all its rows. -/
theorem Effect.of_rowWrites_ok (h : Effect i s t) (hi : i.rowWrites s.params = some (addr, f, rows)) (hok : t.result = some .ok) :
    addr < s.params.chainLength ∧ (∀ r ∈ rows, r ≤ 7) ∧ ∃ u, RowsWritten addr f rows s .ok u ∧ t = endCommand .ok u := by
  cases h with
  | initialised hinit | noTransport hinit => subst hinit; cases hi
  | outOfBounds => cases hok
  | wrote _ _ hwrite => cases (rowWrites_of_registerWrite hwrite).symm.trans hi
  | rows _ _ hrows ha hr hw =>
    cases hi.symm.trans hrows
    obtain rfl := Option.some.inj hok
    exact ⟨ha, hr, _, hw, rfl⟩
  | latched hlatch => cases (latched_of_rowWrites hi).symm.trans hlatch

theorem Effect.inSync_of_ok (h : Effect i s t) (hs : s.Inv) (hi : i.rowWrites s.params = some (addr, f, rows)) (hok : t.result = some .ok)
    (hw : i.mayWrite d r) (hr : r ≤ 7) : t.InSync d r := by
  obtain ⟨rfl, hmem⟩ := mem_rows_of_mayWrite hi hw hr
  obtain ⟨ha, h7, u, hwritten, rfl⟩ := h.of_rowWrites_ok hi hok
  exact hwritten.inSync_of_ok hs ha h7 hmem

/-- Settles O54: an instruction that writes frame bytes and is not INIT is a composite of rows, all accepted. -/
theorem okFrameOperationsBringTheirRowsIntoSync : Obligations.OkFrameOperationsBringTheirRowsIntoSync := by
  intro i s t hs _ hinit h hok d r hw hr
  obtain ⟨addr, f, rows, hi⟩ := rowWrites_of_mayWrite s.params hinit hw
  exact (exec_effect h).inSync_of_ok hs hi hok hw hr

/-- Settles O55: a row that the command writes is brought into sync, the others stay so. -/
theorem okCommandsKeepTheMirror : Obligations.OkCommandsKeepTheMirror := by
  intro i s t hs hc hinit h hok d r hr hsync
  by_cases hw : i.mayWrite d r
  · exact okFrameOperationsBringTheirRowsIntoSync i s t hs hc hinit h hok d r hw hr
  · exact (rowsACommandDoesNotWriteStayAsTheyWere i s t hs hc h d r hr hw).2.2 hsync

/-! ### CLEAR of every device (70_reset_and_hazards.md R173) -/

/-- Accepted CLEARs of a list of devices bring the rows of these devices into sync and no row out of sync. -/
theorem runWhileOk_clear_inSync {devices : List Nat} (hs : s.Inv) (h : runWhileOk (devices.map .clear) s = .next t)
    (hok : t.result = some .ok) (hr : r ≤ 7) (hd : d ∈ devices ∨ s.InSync d r) : t.InSync d r := by
  induction devices generalizing s with
  | nil =>
    cases h
    exact hd.resolve_left List.not_mem_nil
  | cons first rest ih =>
    rw [List.map_cons, runWhileOk] at h
    cases hfirst : exec (.clear first) s with
    | fault e => rw [hfirst] at h; cases h
    | refused e => rw [hfirst] at h; cases h
    | next u =>
      simp only [hfirst] at h
      split at h
      next huok =>
        refine ih ((exec_effect hfirst).inv hs) h ?_
        have hinit : ∀ b, Instr.clear first ≠ .init b := fun _ => nofun
        rcases hd with hmem | hsync
        · rcases List.mem_cons.mp hmem with rfl | hrest
          · exact .inr (okFrameOperationsBringTheirRowsIntoSync _ s u hs rfl hinit hfirst huok d r rfl hr)
          · exact .inl hrest
        · exact .inr (okCommandsKeepTheMirror _ s u hs rfl hinit hfirst huok d r hr hsync)
      next hfailed =>
        cases h
        exact absurd hok hfailed

/-- A host that stops at the first status other than `Ok` leaves the configuration alone. -/
theorem runWhileOk_params {is : List Instr} (h : runWhileOk is s = .next t) : t.params = s.params := by
  induction is generalizing s with
  | nil => cases h; rfl
  | cons i rest ih =>
    rw [runWhileOk] at h
    cases hi : exec i s with
    | fault e => rw [hi] at h; cases h
    | refused e => rw [hi] at h; cases h
    | next u =>
      have hu := (exec_effect hi).params
      simp only [hi] at h
      split at h
      next => exact (ih h).trans hu
      next => cases h; exact hu

/-- Settles O56: every device of the chain is in the list. -/
theorem clearingEveryDeviceMirrorsTheDisplay : Obligations.ClearingEveryDeviceMirrorsTheDisplay := by
  intro s t hs h hok d r hd hr
  rw [runWhileOk_params h] at hd
  exact runWhileOk_clear_inSync hs h hok hr (.inl (List.mem_range.mpr hd))

/-! ### The same frame operation again (R174) -/

/-- Whatever the answers, a row of a composite holds what it held or what the composite makes of that. -/
theorem RowsWritten.frameByte_or (h : RowsWritten addr f rows s st t) (hn : rows.Nodup) (hmem : r ∈ rows) :
    t.frameByte addr r = s.frameByte addr r ∨ t.frameByte addr r = (s.frameByte addr r).map (f r) := by
  induction h with
  | done => exact .inl rfl
  | @failed s q rest old hold _ =>
    by_cases hq : r = q
    · subst hq
      exact .inr (by rw [wroteRow_frameByte_same hold, hold, Option.map_some])
    · exact .inl (wroteRow_frameByte_ne (.inr hq))
  | @more s t st q rest old hold _ h ih =>
    obtain ⟨hfirst, hn'⟩ := List.nodup_cons.mp hn
    rcases List.mem_cons.mp hmem with rfl | hrest
    · exact .inr (by rw [h.frameByte_other (.inr hfirst), wroteRow_frameByte_same hold, hold, Option.map_some])
    · have hne : r ≠ q := fun e => hfirst (e ▸ hrest)
      have hkept : (s.wroteRow addr q (f q old) true).frameByte addr r = s.frameByte addr r := wroteRow_frameByte_ne (.inr hne)
      rw [← hkept]
      exact ih hn' hrest

theorem Effect.frameByte_or (h : Effect i s t) (hi : i.rowWrites s.params = some (addr, f, rows)) (hn : rows.Nodup) (hmem : r ∈ rows) :
    t.frameByte addr r = s.frameByte addr r ∨ t.frameByte addr r = (s.frameByte addr r).map (f r) := by
  cases h with
  | initialised hinit | noTransport hinit => subst hinit; cases hi
  | outOfBounds | wrote | latched => exact .inl rfl
  | rows _ _ hrows _ _ hw =>
    cases hi.symm.trans hrows
    exact hw.frameByte_or hn hmem

/-- A frame operation leaves the bytes of other devices and rows alone. -/
theorem Effect.frameByte_other (h : Effect i s t) (hi : i.rowWrites s.params = some (addr, f, rows)) (hne : d ≠ addr ∨ r ∉ rows) :
    t.frameByte d r = s.frameByte d r := by
  cases h with
  | initialised hinit | noTransport hinit => subst hinit; cases hi
  | outOfBounds | wrote | latched => rfl
  | rows _ _ hrows _ _ hw =>
    cases hi.symm.trans hrows
    exact hw.frameByte_other hne

/-- After `Ok` each row holds what the operation makes of the row it found. -/
theorem Effect.frameByte_of_ok (h : Effect i s t) (hi : i.rowWrites s.params = some (addr, f, rows)) (hn : rows.Nodup)
    (hok : t.result = some .ok) (hmem : r ∈ rows) : t.frameByte addr r = (s.frameByte addr r).map (f r) := by
  obtain ⟨-, -, u, hw, rfl⟩ := h.of_rowWrites_ok hi hok
  obtain ⟨old, hold, hnew⟩ := hw.frameByte_ok hn hmem
  rw [endCommand_frameByte, hnew, hold, Option.map_some]

/-- What a frame operation makes of a row is idempotent, and it writes no row twice (42_frame_operations.md R122, R124 (c), R126). -/
theorem rowWrites_idem (h : i.rowWrites p = some (addr, f, rows)) : rows.Nodup ∧ ∀ r old, f r (f r old) = f r old := by
  cases i <;> cases h
  case clear => exact ⟨rowsAscending_nodup, fun _ _ => rfl⟩
  case setled => exact ⟨List.nodup_singleton _, fun _ => setColumnBit_idem _ _⟩
  case setrow => exact ⟨List.nodup_singleton _, fun _ _ => rfl⟩
  case setcol => exact ⟨setcolOrder_nodup p, fun _ => setColumnBit_idem _ _⟩

/-- A frame operation that returns `Ok` after any first run of it leaves the frame that it leaves when it returns `Ok` at once, from any state
`s'` with the same frame and parameters. -/
theorem frame_again_eq_frame_first (hi : i.rowWrites s.params = some (addr, f, rows)) (ht : Effect i s t) (hu : Effect i t u)
    (huok : u.result = some .ok) (hframe : s'.frame = s.frame) (hparams : s'.params = s.params) (hv : Effect i s' v)
    (hvok : v.result = some .ok) : u.frame = v.frame := by
  obtain ⟨hn, hidem⟩ := rowWrites_idem hi
  apply frame_ext
  intro d r
  have hs' : s'.frameByte d r = s.frameByte d r := frameByte_congr hframe
  by_cases hrow : d = addr ∧ r ∈ rows
  · obtain ⟨rfl, hmem⟩ := hrow
    rw [hu.frameByte_of_ok (ht.params ▸ hi) hn huok hmem, hv.frameByte_of_ok (hparams ▸ hi) hn hvok hmem, hs']
    rcases ht.frameByte_or hi hn hmem with hkept | hupdated
    · rw [hkept]
    · rw [hupdated, Option.map_map]
      exact congrArg (Option.map · _) (funext (hidem r))
  · have hother : d ≠ addr ∨ r ∉ rows := by tauto
    rw [hu.frameByte_other (ht.params ▸ hi) hother, ht.frameByte_other hi hother, hv.frameByte_other (hparams ▸ hi) hother, hs']

/-- Settles O59: the rows hold what the idempotent operation makes of those of the first state, and the second run wrote them all. -/
theorem theSameCommandAgainResynchronisesItsRows : Obligations.TheSameCommandAgainResynchronisesItsRows := by
  intro s t u v addr x y value b i answers hs hmem ht hu huok hv hvok
  replace ht := exec_effect ht
  replace hu := exec_effect hu
  obtain ⟨f, rows, hi⟩ : ∃ f rows, i.rowWrites s.params = some (addr, f, rows) := by
    simp only [List.mem_cons, List.not_mem_nil, or_false] at hmem
    obtain rfl | rfl | rfl | rfl := hmem <;> exact ⟨_, _, rfl⟩
  refine ⟨frame_again_eq_frame_first hi ht hu huok (s' := { s with replies := answers }) rfl rfl (exec_effect hv) hvok, fun d r hw hr => ?_⟩
  exact hu.inSync_of_ok (ht.inv hs) (ht.params ▸ hi) huok hw hr

end Sys2Proof.Machine
end
